-- ==== Sys2Proof/Word.lean ====
section
/-! DEFINITION. The widths that are no parameters (00_scope.md R9): a byte, a 32-bit word, a 24-bit colour of three components. -/

namespace Sys2Proof

/-- A byte is 8 bits (00_scope.md R9). -/
abbrev Byte := BitVec 8

/-- Counters, timestamps, the clock sample and `STATE_SEND_MS` are 32 bits unsigned (00_scope.md R9). -/
abbrev Word32 := BitVec 32

/-- A colour is three 8-bit components (00_scope.md R9, 20_memory.md R51). -/
structure Color where
  red : Byte
  green : Byte
  blue : Byte
deriving DecidableEq, Repr, Inhabited

/-- The colour ClearLeds writes: (0,0,0) (43_dispatcher.md R174). -/
def Color.dark : Color := ⟨0#8, 0#8, 0#8⟩

end Sys2Proof
end

