-- ==== Sys2Proof/Config.lean ====
section
/-! DEFINITION. The configuration `cfg` (00_scope.md R8) and the free values of the spec (10_state.md R40, 93_implementation_defined.md U6). -/

namespace Sys2Proof

/-- The active command set (00_scope.md R2, R8 `PROTO`). -/
inductive Proto where
  | textA
  | textB
  | binary
deriving DecidableEq, Repr

/-- The report policy (44_state_reporter.md R193 `REPORT`). -/
inductive ReportPolicy where
  | push
  | onDemand
deriving DecidableEq, Repr

/-- Counters and `lastCmd` before or after the command's effects (40_frame_reader.md R117 `BOOKKEEP`). -/
inductive Bookkeep where
  | before
  | after
deriving DecidableEq, Repr

/-- A negative decimal field (41_text_commands.md R132 `NEG_POLICY`). -/
inductive NegPolicy where
  | reject
  | clampZero
deriving DecidableEq, Repr

/-- A decimal field with no digits (41_text_commands.md R132 `EMPTY_INT`). -/
inductive EmptyInt where
  | zero
  | malformed
deriving DecidableEq, Repr

/-- Bytes after a text command that takes no operand (41_text_commands.md R145 `TEXT_TRAILING`). -/
inductive TextTrailing where
  | ignore
  | malformed
deriving DecidableEq, Repr

/-- A reference sink's answer to an index beyond its capacity (20_memory.md R52, R55 `PIX_OOR`, `BIT_OOR`). -/
inductive OutOfRange where
  | reject
  | clamp
deriving DecidableEq, Repr

/-- The 18 fields of `cfg`, in the order of the table of 00_scope.md R8. -/
structure Config where
  proto : Proto
  hasPixels : Bool
  hasBitarray : Bool
  n : Nat
  m : Nat
  cap : Nat
  pktMax : Nat
  autoFlush : Bool
  report : ReportPolicy
  stateSendMs : Word32
  statusLField : Bool
  pushRequiresDirty : Bool
  bookkeep : Bookkeep
  negPolicy : NegPolicy
  emptyInt : EmptyInt
  textTrailing : TextTrailing
  pixOor : OutOfRange
  bitOor : OutOfRange
deriving DecidableEq, Repr

namespace Config

/-- The constraints of the table of 00_scope.md R8 (92_eei_decisions.md D29: other values refused). -/
def wf (c : Config) : Bool :=
  (c.hasPixels || c.hasBitarray) && decide (1 ≤ c.n) && decide (8 ≤ c.m) && decide (c.m % 8 = 0) &&
    decide (2 ≤ c.cap) && decide (c.pktMax ≥ if c.hasBitarray then 1 + c.m / 8 else 5)

/-- `PROTO` is TextA or TextB: newline framing (30_encoding.md R80). -/
def isText (c : Config) : Bool :=
  match c.proto with
  | .textA => true
  | .textB => true
  | .binary => false

/-- `lastCmd` exists when `STATUS_L_FIELD` holds and `PROTO` is text (10_state.md R20). -/
def hasLastCmd (c : Config) : Bool := c.statusLField && c.isText

/-- The base configuration of 95_test_vectors.md (`BASE`). `BASE` names no `PROTO`; Binary here is a
DESIGN CHOICE (log entry 1), the only protocol whose opcode map has all nine byte tags. -/
def base : Config where
  proto := .binary
  hasPixels := true
  hasBitarray := true
  n := 20
  m := 80
  cap := 20
  pktMax := 64
  autoFlush := false
  report := .onDemand
  stateSendMs := 100#32
  statusLField := false
  pushRequiresDirty := false
  bookkeep := .before
  negPolicy := .reject
  emptyInt := .zero
  textTrailing := .ignore
  pixOor := .reject
  bitOor := .reject

/-! Free values (log entry 5). Contents of the memories after reset are "unspecified (any value, drawn once at reset)"
(10_state.md R40): each constant below takes the number of the draw and the element's index, and has no body. -/

/-- Unspecified content of `FB[i]` after draw `d`. -/
opaque freeFB : Nat → Nat → Byte

/-- Unspecified content of `PIXP[i]` after draw `d`. -/
opaque freePIXP : Nat → Nat → Color

/-- Unspecified content of `PIXV[i]` after draw `d`. -/
opaque freePIXV : Nat → Nat → Color

/-- Unspecified content of `BITP[j]` after draw `d`. -/
opaque freeBITP : Nat → Nat → Byte

/-- Unspecified content of `BITV[j]` after draw `d`. -/
opaque freeBITV : Nat → Nat → Byte

end Config

end Sys2Proof
end

