-- ==== Sys2Proof/Syntax.lean ====
section
/-! DEFINITION. The instructions (one constructor per row of spec/opcode_table.json), the Malformed causes and the decoded Command. -/

namespace Sys2Proof

/-- One constructor per row of opcode_table.json: a command in the protocol that carries it (30_encoding.md R87, R88, R89).
Indexes are naturals (30_encoding.md R84: "`ledIndex: integer`"), their ranges are checked by `Instr.wf`. -/
inductive Instr where
  /-- TextA.G: GetState (41_text_commands.md R136). -/
  | textAG
  /-- TextA.L: Latch (R137). -/
  | textAL
  /-- TextA.C: ClearLeds (R138). -/
  | textAC
  /-- TextA.O: SetOneLed (R139). -/
  | textAO (led : Nat) (color : Color)
  /-- TextB.S: GetState (R140). -/
  | textBS
  /-- TextB.X: ClearLeds (R141). -/
  | textBX
  /-- TextB.L: SetOneLed (R142). -/
  | textBL (led : Nat) (color : Color)
  /-- Binary.G: GetState (42_binary_commands.md R152). -/
  | binaryG
  /-- Binary.L: Latch (R153). -/
  | binaryL
  /-- Binary.C: ClearLeds (R154). -/
  | binaryC
  /-- Binary.O: SetOneLed (R155). -/
  | binaryO (led : Nat) (color : Color)
  /-- Binary.B: SetBatchLeds, `k >= 1` triples from index `start` (R156). -/
  | binaryB (start : Nat) (colors : List Color)
  /-- Binary.A: SetArray, `M/8` bytes (R157). -/
  | binaryA (bytes : List Byte)
  /-- Binary.0: SetArrayBit, value 0 (R158). -/
  | binary0 (bit : Nat)
  /-- Binary.1: SetArrayBit, value 1 (R159). -/
  | binary1 (bit : Nat)
  /-- Binary.R: Reset (R160). -/
  | binaryR
deriving DecidableEq, Repr

/-- The cause labels the core raises (60_exceptions.md R210). They have no effect on state (R211). -/
inductive MalformedCause where
  | frameOverflow
  | emptyFrame
  | unknownOpcode
  | missingSeparator
  | outOfRange
  | negativeField
  | emptyField
  | trailingBytes
  | wrongLength
deriving DecidableEq, Repr

/-- The decoded Command, a tagged value of ten kinds (30_encoding.md R84). -/
inductive Command where
  | none
  | malformed (cause : MalformedCause)
  | getState
  | latch
  | clearLeds
  | setOneLed (ledIndex : Nat) (color : Color)
  | setBatchLeds (ledIndex : Nat) (colors : List Color)
  | setArray (arrayBytes : List Byte)
  | setArrayBit (bitIndex : Nat) (bitValue : Bool)
  | reset
deriving DecidableEq, Repr

/-- The protocol whose opcode map holds the instruction (opcode_table.json `protocol`). -/
def Instr.proto : Instr → Proto
  | .textAG => .textA
  | .textAL => .textA
  | .textAC => .textA
  | .textAO _ _ => .textA
  | .textBS => .textB
  | .textBX => .textB
  | .textBL _ _ => .textB
  | .binaryG => .binary
  | .binaryL => .binary
  | .binaryC => .binary
  | .binaryO _ _ => .binary
  | .binaryB _ _ => .binary
  | .binaryA _ => .binary
  | .binary0 _ => .binary
  | .binary1 _ => .binary
  | .binaryR => .binary

/-- The sink the row's "needs" column names is present (30_encoding.md R90). -/
def Instr.sinkPresent (c : Config) : Instr → Bool
  | .textAG => true
  | .textAL => true
  | .textAC => c.hasPixels
  | .textAO _ _ => c.hasPixels
  | .textBS => true
  | .textBX => c.hasPixels
  | .textBL _ _ => c.hasPixels
  | .binaryG => true
  | .binaryL => true
  | .binaryC => c.hasPixels
  | .binaryO _ _ => c.hasPixels
  | .binaryB _ _ => c.hasPixels
  | .binaryA _ => c.hasBitarray
  | .binary0 _ => c.hasBitarray
  | .binary1 _ => c.hasBitarray
  | .binaryR => true

/-- The kind and payload the row decodes to (opcode_table.json `kind`; 30_encoding.md R84, R86). -/
def Instr.command : Instr → Command
  | .textAG => .getState
  | .textAL => .latch
  | .textAC => .clearLeds
  | .textAO led color => .setOneLed led color
  | .textBS => .getState
  | .textBX => .clearLeds
  | .textBL led color => .setOneLed led color
  | .binaryG => .getState
  | .binaryL => .latch
  | .binaryC => .clearLeds
  | .binaryO led color => .setOneLed led color
  | .binaryB start colors => .setBatchLeds start colors
  | .binaryA bytes => .setArray bytes
  | .binary0 bit => .setArrayBit bit false
  | .binary1 bit => .setArrayBit bit true
  | .binaryR => .reset

end Sys2Proof
end

