-- ==== Sys2Proof/WellFormed.lean ====
section
/-! DEFINITION. Which instructions an instance of the core has: active protocol, present sink, operand ranges (30_encoding.md R84, R87 to R90). -/

namespace Sys2Proof

/-- Operand ranges of 30_encoding.md R84: indexes 0..255, at least one triple, exactly `M/8` array bytes. -/
def Instr.operandsOk (c : Config) : Instr → Bool
  | .textAG => true
  | .textAL => true
  | .textAC => true
  | .textAO led _ => decide (led ≤ 255)
  | .textBS => true
  | .textBX => true
  | .textBL led _ => decide (led ≤ 255)
  | .binaryG => true
  | .binaryL => true
  | .binaryC => true
  | .binaryO led _ => decide (led ≤ 255)
  | .binaryB start colors => decide (start ≤ 255) && decide (1 ≤ colors.length)
  | .binaryA bytes => decide (bytes.length = c.m / 8)
  | .binary0 bit => decide (bit ≤ 255)
  | .binary1 bit => decide (bit ≤ 255)
  | .binaryR => true

/-- An instruction of the instance `c`: of its protocol, its sink present, its operands in range. -/
def Instr.wf (c : Config) (i : Instr) : Bool :=
  decide (i.proto = c.proto) && i.sinkPresent c && i.operandsOk c

end Sys2Proof
end

