-- ==== Sys2Proof/Decode.lean ====
section
/-! DEFINITION. The Command Decoder (30_encoding.md R91; 41_text_commands.md R130 to R146; 42_binary_commands.md R150), total on any bytes and
rejecting by a cause label, and the encoder written from the same encodings. -/

namespace Sys2Proof

/-! ## Character codes (30_encoding.md R82; ASCII is general knowledge there, log entry 12) -/

/-- `'\n'`, the terminator `TERM`. -/
def chLF : Byte := 0x0A#8
/-- `'\r'`. -/
def chCR : Byte := 0x0D#8
/-- `','`. -/
def chComma : Byte := 0x2C#8
/-- `'-'`. -/
def chMinus : Byte := 0x2D#8
/-- `'0'`, the digit zero and the opcode of SetArrayBit with value 0. -/
def ch0 : Byte := 0x30#8
/-- `'1'`. -/
def ch1 : Byte := 0x31#8
/-- `'9'`. -/
def ch9 : Byte := 0x39#8
/-- `':'`. -/
def chColon : Byte := 0x3A#8
/-- `';'`. -/
def chSemicolon : Byte := 0x3B#8
/-- `'A'`. -/
def chA : Byte := 0x41#8
/-- `'B'`. -/
def chB : Byte := 0x42#8
/-- `'C'`. -/
def chC : Byte := 0x43#8
/-- `'G'`. -/
def chG : Byte := 0x47#8
/-- `'L'`. -/
def chL : Byte := 0x4C#8
/-- `'O'`. -/
def chO : Byte := 0x4F#8
/-- `'R'`. -/
def chR : Byte := 0x52#8
/-- `'S'`. -/
def chS : Byte := 0x53#8
/-- `'X'`. -/
def chX : Byte := 0x58#8

/-! ## Decimal spelling (00_scope.md R12 `dec`) -/

/-- The ASCII digit of `d`, for `d < 10`. -/
def digitByte (d : Nat) : Byte := BitVec.ofNat 8 (0x30 + d)

/-- Decimal digits of `v`, most significant first; `fuel` bounds their number. -/
def decDigits : Nat → Nat → List Byte
  | 0, _ => []
  | fuel + 1, v => if v < 10 then [digitByte v] else decDigits fuel (v / 10) ++ [digitByte (v % 10)]

/-- `dec(v)`: "the shortest decimal ASCII spelling of the natural `v`" (00_scope.md R12). A natural below `2 ^ k` has at most `k` digits. -/
def dec (v : Nat) : List Byte := decDigits (v.log2 + 1) v

/-! ## Colour packing (20_memory.md R62) -/

/-- `red = c[23:16]`, `green = c[15:8]`, `blue = c[7:0]`. -/
def colorOfNat (c : Nat) : Color :=
  ⟨BitVec.ofNat 8 (c / 65536), BitVec.ofNat 8 (c / 256), BitVec.ofNat 8 c⟩

/-- The 24-bit value whose fields are the three components. -/
def natOfColor (c : Color) : Nat := c.red.toNat * 65536 + c.green.toNat * 256 + c.blue.toNat

/-! ## The scanner (41_text_commands.md R130 to R132). A position `p` of the frame is held as the bytes from `p` on. -/

/-- `charAt(f, p)` on the bytes from `p` on: the first of them, or `TERM` past the end (R130). -/
def charAt (rest : List Byte) : Byte := rest.headD chLF

/-- `'0'..'9'`. -/
def isDigit (b : Byte) : Bool := decide (0x30 ≤ b.toNat) && decide (b.toNat ≤ 0x39)

/-- What one scan returns: `(neg, mag, nd, p)` of R131. -/
structure Scan where
  neg : Bool
  mag : Nat
  digits : Nat
  rest : List Byte
deriving DecidableEq, Repr

/-- The digit loop of R131: `mag` is an exact natural number, it never wraps. -/
def scanDigits (neg : Bool) : List Byte → Nat → Nat → Scan
  | [], mag, nd => ⟨neg, mag, nd, []⟩
  | b :: bs, mag, nd =>
    if isDigit b then scanDigits neg bs (mag * 10 + (b.toNat - 0x30)) (nd + 1) else ⟨neg, mag, nd, b :: bs⟩

/-- `scan_int` (R131): at most one `-`, only before the first digit. -/
def scanInt (f : List Byte) : Scan :=
  if charAt f = chMinus then scanDigits true f.tail 0 0 else scanDigits false f 0 0

/-- `field` (R132): a scan to an operand value or a decode error. -/
def field (c : Config) (sc : Scan) (max : Nat) : Except MalformedCause Nat :=
  if sc.digits = 0 ∧ c.emptyInt = .malformed then .error .emptyField
  else if sc.neg = true ∧ 0 < sc.mag ∧ c.negPolicy = .reject then .error .negativeField
  else
    let v := if sc.neg = true ∧ 0 < sc.mag then 0 else sc.mag
    if max < v then .error .outOfRange else .ok v

/-- `decodeSetPixel` (R133) on the bytes after the opcode: the led index and the colour. -/
def decodeSetPixel (c : Config) (operands : List Byte) : Except MalformedCause (Nat × Color) :=
  let s1 := scanInt operands
  if charAt s1.rest ≠ chComma then .error .missingSeparator
  else
    let s2 := scanInt s1.rest.tail
    if charAt s2.rest ≠ chLF then .error .missingSeparator
    else
      match field c s1 255 with
      | .error e => .error e
      | .ok led =>
        match field c s2 16777215 with
        | .error e => .error e
        | .ok col => .ok (led, colorOfNat col)

/-- `noOperand` (R145): `tail` is `f[1..]`. -/
def noOperand (c : Config) (tail : List Byte) (i : Instr) : Except MalformedCause Instr :=
  if tail ≠ [] ∧ c.textTrailing = .malformed then .error .trailingBytes else .ok i

/-- A set-pixel opcode of a text protocol, `mk` its row. -/
def setPixel (c : Config) (operands : List Byte) (mk : Nat → Color → Instr) : Except MalformedCause Instr :=
  match decodeSetPixel c operands with
  | .error e => .error e
  | .ok (led, col) => .ok (mk led col)

/-! ## Top-level decoders -/

/-- `decodeTextA` (41_text_commands.md R134): opcode `op`, then `f[1..]`. -/
def decodeTextA (c : Config) (op : Byte) (tail : List Byte) : Except MalformedCause Instr :=
  if op = chG then noOperand c tail .textAG
  else if op = chL then noOperand c tail .textAL
  else if op = chC ∧ c.hasPixels = true then noOperand c tail .textAC
  else if op = chO ∧ c.hasPixels = true then setPixel c tail .textAO
  else .error .unknownOpcode

/-- `decodeTextB` (41_text_commands.md R135). -/
def decodeTextB (c : Config) (op : Byte) (tail : List Byte) : Except MalformedCause Instr :=
  if op = chS then noOperand c tail .textBS
  else if op = chX ∧ c.hasPixels = true then noOperand c tail .textBX
  else if op = chL ∧ c.hasPixels = true then setPixel c tail .textBL
  else .error .unknownOpcode

/-- The triples of a batch payload: `(p[2+3j], p[3+3j], p[4+3j])` (42_binary_commands.md R156). -/
def triples : List Byte → List Color
  | r :: g :: b :: more => ⟨r, g, b⟩ :: triples more
  | [_, _] => []
  | [_] => []
  | [] => []

/-- A binary opcode without payload: `need(size = 1)` (R150). -/
def noPayload (payload : List Byte) (i : Instr) : Except MalformedCause Instr :=
  if payload.length = 0 then .ok i else .error .wrongLength

/-- `decodeBinary` (42_binary_commands.md R150): opcode `op`, then `p[1..]`, so `size = 1 + payload.length`. -/
def decodeBinary (c : Config) (op : Byte) (payload : List Byte) : Except MalformedCause Instr :=
  if op = chG then noPayload payload .binaryG
  else if op = chL then noPayload payload .binaryL
  else if op = chC ∧ c.hasPixels = true then noPayload payload .binaryC
  else if op = chO ∧ c.hasPixels = true then
    match payload with
    | [led, r, g, b] => .ok (.binaryO led.toNat ⟨r, g, b⟩)
    | _ => .error .wrongLength
  else if op = chB ∧ c.hasPixels = true then
    match payload with
    | start :: rgb =>
      if 5 ≤ 2 + rgb.length ∧ rgb.length % 3 = 0 then .ok (.binaryB start.toNat (triples rgb)) else .error .wrongLength
    | [] => .error .wrongLength
  else if op = chA ∧ c.hasBitarray = true then
    if 1 + payload.length = 1 + c.m / 8 then .ok (.binaryA payload) else .error .wrongLength
  else if op = ch0 ∧ c.hasBitarray = true then
    match payload with
    | [bit] => .ok (.binary0 bit.toNat)
    | _ => .error .wrongLength
  else if op = ch1 ∧ c.hasBitarray = true then
    match payload with
    | [bit] => .ok (.binary1 bit.toNat)
    | _ => .error .wrongLength
  else if op = chR then noPayload payload .binaryR
  else .error .unknownOpcode

/-- `decode(cfg, f)` (30_encoding.md R91, R93): a pure total function of the bytes and `cfg`. -/
def decode (c : Config) (f : List Byte) : Except MalformedCause Instr :=
  match f with
  | [] => .error .emptyFrame
  | op :: tail =>
    match c.proto with
    | .textA => decodeTextA c op tail
    | .textB => decodeTextB c op tail
    | .binary => decodeBinary c op tail

/-- The decoded Command of 30_encoding.md R84: the row's kind and payload, or Malformed with the label. -/
def decodeCommand (c : Config) (f : List Byte) : Command :=
  match decode c f with
  | .ok i => i.command
  | .error e => .malformed e

/-! ## The encoder: the frame of an instruction (30_encoding.md R81, R83, R85, R86) -/

/-- The three bytes of a triple, red first (R83). -/
def colorBytes (col : Color) : List Byte := [col.red, col.green, col.blue]

/-- `<led>,<24-bit-color>` in shortest decimal (R85; log entry 13). -/
def setPixelText (led : Nat) (col : Color) : List Byte := dec led ++ chComma :: dec (natOfColor col)

/-- The frame that carries the instruction, without the text terminator. -/
def encode : Instr → List Byte
  | .textAG => [chG]
  | .textAL => [chL]
  | .textAC => [chC]
  | .textAO led col => chO :: setPixelText led col
  | .textBS => [chS]
  | .textBX => [chX]
  | .textBL led col => chL :: setPixelText led col
  | .binaryG => [chG]
  | .binaryL => [chL]
  | .binaryC => [chC]
  | .binaryO led col => chO :: BitVec.ofNat 8 led :: colorBytes col
  | .binaryB start cols => chB :: BitVec.ofNat 8 start :: cols.flatMap colorBytes
  | .binaryA bytes => chA :: bytes
  | .binary0 bit => [ch0, BitVec.ofNat 8 bit]
  | .binary1 bit => [ch1, BitVec.ofNat 8 bit]
  | .binaryR => [chR]

/-! ## The opcode table's words (log entry 14) -/

/-- The protocol a table word of `size` bytes is read in: the bits do not say it (30_encoding.md R96). TextB for `'S'` and `'X'`, which
only TextB has; TextA for `'O'` alone (opcode_table.json gives the other `'O'` row five bytes); Binary for every other word. -/
def tableProto (op : Byte) (size : Nat) : Proto :=
  if op = chS ∨ op = chX then .textB else if op = chO ∧ size ≤ 1 then .textA else .binary

/-- The length of the shortest binary packet of the opcode that has at least `size` bytes. -/
def tableLength (c : Config) (op : Byte) (size : Nat) : Nat :=
  if op = chO then max size 5
  else if op = chB then 2 + 3 * max 1 ((size - 2 + 2) / 3)
  else if op = chA then max size (1 + c.m / 8)
  else if op = ch0 ∨ op = ch1 then max size 2
  else size

/-- The operands the table gives no bits, all zero: `0,0` for a text set-pixel, zero bytes in Binary. -/
def tableZeros (c : Config) (op : Byte) (size : Nat) : List Byte :=
  if op = chO ∧ size ≤ 1 then setPixelText 0 Color.dark else List.replicate (tableLength c op size - size) 0#8

/-- Bytes of a word numbered as the table numbers it: the first byte holds bits 7..0. -/
def bytesOfWord (count w : Nat) : List Byte := (List.range count).map fun j => BitVec.ofNat 8 (w / 256 ^ j)

/-- The frame of a table word of `nbits` bits, completed with zero operands. -/
def tableFrame (c : Config) (nbits w : Nat) : List Byte :=
  let f := bytesOfWord ((nbits + 7) / 8) w
  f ++ tableZeros c (charAt f) f.length

/-- The configuration a table word is read in: `c` with the word's protocol. -/
def tableConfig (c : Config) (nbits w : Nat) : Config :=
  { c with proto := tableProto (charAt (bytesOfWord ((nbits + 7) / 8) w)) ((nbits + 7) / 8) }

/-- The instruction the decoder reads from a table word, in the base configuration. -/
def decodeTableWord (nbits w : Nat) : Option Instr :=
  match decode (tableConfig Config.base nbits w) (tableFrame Config.base nbits w) with
  | .ok i => some i
  | .error _ => none

end Sys2Proof
end

