-- ==== Sys2Proof/Machine/State.lean ====
section
/-! DEFINITION. The state of the core as plain data (10_state.md R20, 20_memory.md R50), its reset (R40), why a step can stop, the field updates. -/

namespace Sys2Proof.Machine

/-- Why the machine stops with a fault: the environment delivered an event that is none (00_scope.md R7). Both are SAFE: the model
stops where the spec gives no step. The core itself raises no fault (93_implementation_defined.md part 1). -/
inductive Fault where
  /-- Raised by `handle`: an `RxByte` in Binary or a `Packet` in a text protocol; "the port does not exist in that configuration". SAFE. -/
  | portAbsent
  /-- Raised by `handle`: a packet longer than `PKT_MAX`, which the external framer never delivers. SAFE. -/
  | packetTooLong
deriving DecidableEq, Repr

/-- Why the machine refuses: the spec gives the behaviour no meaning. All are SAFE. -/
inductive Refusal where
  /-- Raised by `exec` only: the instruction has no meaning in the model yet (no arm raises it). SAFE. -/
  | notModelled (mnemonic : String)
  /-- Raised by `countGood`: `cmdRx +1` at 2^32 - 1 has "no meaning: a model marks the state refused" (10_state.md R30). SAFE. -/
  | goodCounterExhausted
  /-- Raised by `countBad`: `badRx +1` at 2^32 - 1, likewise (10_state.md R30). SAFE. -/
  | badCounterExhausted
  /-- Raised by `nextEvent`: `cfg` outside the table of 00_scope.md R8; "other values refused" (92_eei_decisions.md D29). SAFE. -/
  | configOutsideTable
deriving DecidableEq, Repr

/-- The input events (00_scope.md R7). -/
inductive Event where
  | extReset
  | rxByte (b : Byte) (now : Word32)
  | packet (p : List Byte) (now : Word32)
  | tick (now : Word32)
deriving DecidableEq, Repr

/-- The output operations (00_scope.md R7). Pixel and bit indexes are naturals, not reduced (20_memory.md R52, R55). -/
inductive OutOp where
  | pixSet (i : Nat) (c : Color)
  | pixFlush
  | bitSet (k : Nat) (v : Bool)
  | bitLoad (bytes : List Byte)
  | bitCommit
  | outWrite (bytes : List Byte)
  | actToggle
  | restartReq
deriving DecidableEq, Repr

/-- The element-indexed memories (20_memory.md R50). Each is the list of all its elements, index 0 first, so its one canonical
form is its length (log entry 6): `FB` has `CAP` bytes, `PIXP` and `PIXV` have `N` pixels, `BITP` and `BITV` have `M/8` bytes. -/
structure Memory where
  fb : List Byte
  pixp : List Color
  pixv : List Color
  bitp : List Byte
  bitv : List Byte
deriving DecidableEq, Repr

namespace Memory

/-- The canonical form: every element of every space is listed, once. -/
abbrev wf (c : Config) (m : Memory) : Prop :=
  m.fb.length = c.cap ∧ m.pixp.length = c.n ∧ m.pixv.length = c.n ∧ m.bitp.length = c.m / 8 ∧ m.bitv.length = c.m / 8

/-- The unspecified contents after draw `d` (10_state.md R40; log entry 5). -/
def unspecified (c : Config) (d : Nat) : Memory where
  fb := (List.range c.cap).map (Config.freeFB d)
  pixp := (List.range c.n).map (Config.freePIXP d)
  pixv := (List.range c.n).map (Config.freePIXV d)
  bitp := (List.range (c.m / 8)).map (Config.freeBITP d)
  bitv := (List.range (c.m / 8)).map (Config.freeBITV d)

end Memory

/-- The state: the spec's (10_state.md R20), the output issued so far, `cfg`, and the model's own `inputs`, `now`, `draws`. -/
structure State where
  /-- `cfg`, "fixed at reset and never changes while the core runs" (00_scope.md R8; log entry 1). -/
  cfg : Config
  /-- `FB`, `PIXP`, `PIXV`, `BITP`, `BITV` (20_memory.md R50). -/
  mem : Memory
  /-- The write cursor (10_state.md R22). -/
  cur : Nat
  /-- The overflow flag (R23). -/
  ovf : Bool
  /-- `commandsReceived` (R28). -/
  cmdRx : Word32
  /-- `badCommandsReceived` (R29). -/
  badRx : Word32
  /-- `lastCommandTimestamp` (R31). -/
  lastCmd : Word32
  /-- `lastStateSentTimestamp` (R32). -/
  lastSent : Word32
  /-- The dirty mark (R33). -/
  dirty : Bool
  /-- The level of the activity indicator (R34). -/
  act : Bool
  /-- The Reset command's terminal action was taken (R35). -/
  halted : Bool
  /-- The output operations issued so far, oldest first (20_memory.md R69; log entry 4). -/
  out : List OutOp
  /-- The events still to come, next first (R27(a), R39; log entry 2). -/
  inputs : List Event
  /-- The clock sample carried by the last processed event that carries one (R39; log entry 3). -/
  now : Word32
  /-- The number of the next draw of unspecified contents (log entry 5). -/
  draws : Nat
deriving DecidableEq, Repr

namespace State

/-- The state after reset in configuration `c` with draw `d` (10_state.md R40, 70_reset_and_hazards.md R240). -/
def resetWith (c : Config) (d : Nat) : State where
  cfg := c
  mem := Memory.unspecified c d
  cur := 0
  ovf := false
  cmdRx := 0#32
  badRx := 0#32
  lastCmd := 0#32
  lastSent := 0#32
  dirty := false
  act := false
  halted := false
  out := []
  inputs := []
  now := 0#32
  draws := d + 1

/-- The machine right after power-on: `resetWith` in the base configuration (log entry 1), draw 0, no event pending (log entry 2). -/
def reset : State := resetWith Config.base 0

/-! Field updates: each changes the fields it names and no other (Laws/State.lean). -/

def setMem (s : State) (m : Memory) : State := { s with mem := m }
def setReader (s : State) (cur : Nat) (ovf : Bool) : State := { s with cur := cur, ovf := ovf }
def setCmdRx (s : State) (v : Word32) : State := { s with cmdRx := v }
def setBadRx (s : State) (v : Word32) : State := { s with badRx := v }
def setLastCmd (s : State) (v : Word32) : State := { s with lastCmd := v }
def setLastSent (s : State) (v : Word32) : State := { s with lastSent := v }
def setDirty (s : State) (v : Bool) : State := { s with dirty := v }
def setAct (s : State) (v : Bool) : State := { s with act := v }
def setHalted (s : State) (v : Bool) : State := { s with halted := v }
def pushOut (s : State) (op : OutOp) : State := { s with out := s.out ++ [op] }
def setInputs (s : State) (es : List Event) : State := { s with inputs := es }
def setNow (s : State) (v : Word32) : State := { s with now := v }

/-- The outbox, "a byte stream the core can only append to" (20_memory.md R59): the bytes of every `OutWrite`, in order. -/
def outbox (s : State) : List Byte :=
  s.out.flatMap fun op =>
    match op with
    | .outWrite bytes => bytes
    | .pixSet _ _ => []
    | .pixFlush => []
    | .bitSet _ _ => []
    | .bitLoad _ => []
    | .bitCommit => []
    | .actToggle => []
    | .restartReq => []

end State

/-- What a step answers. -/
abbrev Result := Host.Outcome State Fault Refusal

end Sys2Proof.Machine
end

