-- ==== Sys2Proof/Machine/Operands.lean ====
section
/-! DEFINITION. Operand forms on the machine's side: effective sink indexes (20_memory.md R52, R55), byte order and unsigned clock arithmetic
(00_scope.md R12). The operand forms of the encodings are in Decode.lean. -/

namespace Sys2Proof.Machine

/-- The pixel a `PixSet(i, …)` writes: `i`, or by `PIX_OOR` nothing or the last pixel (20_memory.md R52). -/
def pixTarget (c : Config) (i : Nat) : Option Nat :=
  if i < c.n then some i
  else
    match c.pixOor with
    | .reject => none
    | .clamp => some (c.n - 1)

/-- The bit a `BitSet(k, …)` writes: `k`, or by `BIT_OOR` nothing or the last bit (20_memory.md R55). -/
def bitTarget (c : Config) (k : Nat) : Option Nat :=
  if k < c.m then some k
  else
    match c.bitOor with
    | .reject => none
    | .clamp => some (c.m - 1)

/-- `byteIndex = bitIndex >> 3` (20_memory.md R55). -/
def bitByte (k : Nat) : Nat := k >>> 3

/-- `mask = 1 << (bitIndex % 8)`, bit 0 the least significant (20_memory.md R55, R63). -/
def bitMask (k : Nat) : Byte := 1#8 <<< (k % 8)

/-- `be32(v)`: most significant byte first (00_scope.md R12, 20_memory.md R61). -/
def be32 (v : Word32) : List Byte :=
  [v.extractLsb' 24 8, v.extractLsb' 16 8, v.extractLsb' 8 8, v.extractLsb' 0 8]

/-- The clamp of a stored timestamp: `if t >u now then t <- now` (44_state_reporter.md R196). -/
def clampTime (t now : Word32) : Word32 := if now < t then now else t

/-- `now -u32 t` (44_state_reporter.md R197). -/
def elapsed (now t : Word32) : Word32 := now - t

end Sys2Proof.Machine
end

