-- ==== Sys2Proof/Machine/Flags.lean ====
section
/-! DEFINITION. Every flag and counter update: the reader's `cur`/`ovf` (10_state.md R22, R23), `dirty` (R33), `halted` (R35), the counters
and `lastCmd` (R28 to R31). `act` is updated with its operation in Ops.lean. -/

namespace Sys2Proof.Machine

/-- A data byte advances the cursor, which stops at `CAP`; `ovf` is set when it reaches `CAP` (40_frame_reader.md R113). -/
def advanceReader (s : State) : State :=
  if s.cur < s.cfg.cap then s.setReader (s.cur + 1) (s.ovf || decide (s.cur + 1 = s.cfg.cap)) else s

/-- Finalization clears the cursor and the overflow flag (40_frame_reader.md R114, R116). -/
def clearReader (s : State) : State := s.setReader 0 false

/-- GetState under Push marks the state dirty (10_state.md R33). -/
def markDirty (s : State) : State := s.setDirty true

/-- The Reset command's terminal action (10_state.md R35). -/
def halt (s : State) : State := s.setHalted true

/-- `c +1` (10_state.md R30): no meaning at 2^32 - 1. -/
def counterNext (v : Word32) : Option Word32 := if v = 0xFFFFFFFF#32 then none else some (v + 1#32)

/-- `lastCmd <- now`, where `lastCmd` exists (40_frame_reader.md R117, 10_state.md R20, R31). -/
def stampLastCmd (s : State) : State := if s.cfg.hasLastCmd then s.setLastCmd s.now else s

/-- The bookkeeping of a good frame: `cmdRx <- cmdRx +1 ; lastCmd <- now` (40_frame_reader.md R117). -/
def countGood (s : State) : Result :=
  match counterNext s.cmdRx with
  | some v => .next (stampLastCmd (s.setCmdRx v))
  | none => .refused .goodCounterExhausted

/-- The bookkeeping of a bad frame: `badRx <- badRx +1` (40_frame_reader.md R117). -/
def countBad (s : State) : Result :=
  match counterNext s.badRx with
  | some v => .next (s.setBadRx v)
  | none => .refused .badCounterExhausted

end Sys2Proof.Machine
end

