-- ==== Sys2Proof/Machine/Ops.lean ====
section
/-! DEFINITION. The named operations over memory (20_memory.md R52 to R58), emitting an output operation, taking the exception of this
hardware (a Malformed frame, 60_exceptions.md R216), and `ExtReset` (70_reset_and_hazards.md R240). -/

namespace Sys2Proof.Machine

namespace Memory

/-- `PixSet(i, r, g, b)` on the reference memory (20_memory.md R52). -/
def pixSet (c : Config) (i : Nat) (col : Color) (m : Memory) : Memory :=
  match pixTarget c i with
  | some j => { m with pixp := m.pixp.set j col }
  | none => m

/-- `PixFlush()`: `PIXV <- PIXP` (20_memory.md R53). -/
def pixFlush (m : Memory) : Memory := { m with pixv := m.pixp }

/-- Sets or clears one bit of the packed bytes (20_memory.md R55). -/
def putBit (bytes : List Byte) (k : Nat) (v : Bool) : List Byte :=
  bytes.modify (bitByte k) fun b => if v then b ||| bitMask k else b &&& ~~~(bitMask k)

/-- `BitSet(k, v)` on the reference memory (20_memory.md R55). -/
def bitSet (c : Config) (k : Nat) (v : Bool) (m : Memory) : Memory :=
  match bitTarget c k with
  | some j => { m with bitp := putBit m.bitp j v }
  | none => m

/-- `BITP[j] <- bytes[j]` for every `j` (20_memory.md R56). The rule is for exactly `M/8` bytes; element by element it also says
what a list of another length would do, so that the array keeps its length (log entry 11). -/
def loadBytes : List Byte → List Byte → List Byte
  | [], _ => []
  | old :: olds, [] => old :: olds
  | _ :: olds, new :: news => new :: loadBytes olds news

/-- `BitLoad(bytes)` on the reference memory (20_memory.md R56). -/
def bitLoad (bytes : List Byte) (m : Memory) : Memory := { m with bitp := loadBytes m.bitp bytes }

/-- `BitCommit()`: `BITV <- BITP` (20_memory.md R57). -/
def bitCommit (m : Memory) : Memory := { m with bitv := m.bitp }

/-- `FB[i] <- b` (20_memory.md R58). -/
def fbStore (i : Nat) (b : Byte) (m : Memory) : Memory := { m with fb := m.fb.set i b }

/-- What an output operation does to the reference memories; the outbox, the activity indicator and the restart line are no memory. -/
def apply (c : Config) (op : OutOp) (m : Memory) : Memory :=
  match op with
  | .pixSet i col => m.pixSet c i col
  | .pixFlush => m.pixFlush
  | .bitSet k v => m.bitSet c k v
  | .bitLoad bytes => m.bitLoad bytes
  | .bitCommit => m.bitCommit
  | .outWrite _ => m
  | .actToggle => m
  | .restartReq => m

end Memory

/-- `emit Op(args)`: the operation is issued and its effect on the reference memories is complete (00_scope.md R12, 20_memory.md R69). -/
def emit (op : OutOp) (s : State) : State := (s.setMem (s.mem.apply s.cfg op)).pushOut op

/-- Sequencing: go on from a next state, stop at a stop. -/
def andThen (r : Result) (k : State → Result) : Result :=
  match r with
  | .next s => k s
  | .fault f => .fault f
  | .refused f => .refused f

/-- The activity indicator: in Binary every processed packet inverts `act` and emits `ActToggle()`, first in the step's output
(43_dispatcher.md R171, 10_state.md R34). -/
def signalActivity (s : State) : State :=
  match s.cfg.proto with
  | .binary => emit .actToggle (s.setAct (!s.act))
  | .textA => s
  | .textB => s

/-- TAKING THE EXCEPTION: what a Malformed frame does, whatever its cause (60_exceptions.md R211, R216; 40_frame_reader.md R117): the
activity toggle in Binary and `badRx +1`. In text the reader has been cleared by the finalization (R114). There is no handler, so the
return (R218) is that the next event is handled by the ordinary rules. -/
def takeMalformed (s : State) : Result := countBad (signalActivity s)

/-- `ExtReset` (70_reset_and_hazards.md R240): every register at its reset value, a fresh draw of the memories, no output. What was
issued before stays issued, and the events still to come stay (log entry 15). -/
def extReset (s : State) : State :=
  { State.resetWith s.cfg s.draws with out := s.out, inputs := s.inputs, now := s.now }

end Sys2Proof.Machine
end

