-- ==== Sys2Proof/Machine/Reporter.lean ====
section
/-! DEFINITION. The State Reporter (44_state_reporter.md R190 to R197): the status frame in both formats, and `Tick`. -/

namespace Sys2Proof.Machine

/-- The binary status packet: `['S'] ++ be32(cmdRx) ++ be32(badRx)` (R191). -/
def statusPacket (s : State) : List Byte := chS :: (be32 s.cmdRx ++ be32 s.badRx)

/-- A field of the text status line: a letter, `:`, the decimal number, `;`. -/
def statusField (letter : Byte) (v : Word32) : List Byte := letter :: chColon :: (dec v.toNat ++ [chSemicolon])

/-- The text status line (R192), `lastCmd` being clamped already where it is read. -/
def statusLine (s : State) : List Byte :=
  statusField chC s.cmdRx ++ statusField chB s.badRx ++
    (if s.cfg.statusLField then statusField chL (elapsed s.now s.lastCmd) else []) ++ [chCR, chLF]

/-- The clamp of `lastCmd` that building a text line with an `L:` field makes (R192, R196). -/
def clampLastCmd (s : State) : State :=
  if s.cfg.hasLastCmd then s.setLastCmd (clampTime s.lastCmd s.now) else s

/-- `StatusFrame(now)`: its format follows `PROTO` (R190). -/
def statusFrame (s : State) : List Byte :=
  match s.cfg.proto with
  | .binary => statusPacket s
  | .textA => statusLine s
  | .textB => statusLine s

/-- `emit OutWrite(StatusFrame(now))`. -/
def emitStatus (s : State) : State :=
  let s := clampLastCmd s
  emit (.outWrite (statusFrame s)) s

/-- The gate of the rate-limited reporter, `lastSent` being clamped already (R195): enough time, and `dirty` where it is required. -/
def pushDue (s : State) : Bool :=
  decide (s.cfg.stateSendMs ≤ elapsed s.now s.lastSent) && (!s.cfg.pushRequiresDirty || s.dirty)

/-- `Tick(now)` under the rate-limited push policy (R195). -/
def tickPush (s : State) : State :=
  let s := s.setLastSent (clampTime s.lastSent s.now)
  if pushDue s then ((emitStatus s).setLastSent s.now).setDirty false else s

/-- `Tick(now)` (R194, R195). -/
def tick (s : State) : State :=
  match s.cfg.report with
  | .push => tickPush s
  | .onDemand => s

end Sys2Proof.Machine
end

