-- ==== Sys2Proof/Machine/Dispatcher.lean ====
section
/-! DEFINITION. The Command Dispatcher: the effect of each command kind (43_dispatcher.md R170 to R181) and the completion of a frame
(40_frame_reader.md R117). -/

namespace Sys2Proof.Machine

/-- GetState (R172): report now, or mark dirty. -/
def doGetState (s : State) : State :=
  match s.cfg.report with
  | .onDemand => emitStatus s
  | .push => markDirty s

/-- Latch (R173): flush the pixels, then commit the bits, of the sinks present. -/
def doLatch (s : State) : State :=
  let s := if s.cfg.hasPixels then emit .pixFlush s else s
  if s.cfg.hasBitarray then emit .bitCommit s else s

/-- `PixSet` on consecutive indexes from `idx`, in order; natural-number increment, no wrap at 256 (R176). -/
def pixSetRun : Nat → List Color → State → State
  | _, [], s => s
  | idx, col :: cols, s => pixSetRun (idx + 1) cols (emit (.pixSet idx col) s)

/-- ClearLeds (R174): every pixel to (0,0,0) in ascending order, then flush. -/
def doClearLeds (s : State) : State := emit .pixFlush (pixSetRun 0 (List.replicate s.cfg.n Color.dark) s)

/-- SetOneLed (R175): one `PixSet`, and a flush under `AUTO_FLUSH`. -/
def doSetOneLed (ledIndex : Nat) (color : Color) (s : State) : State :=
  let s := emit (.pixSet ledIndex color) s
  if s.cfg.autoFlush then emit .pixFlush s else s

/-- SetBatchLeds (R176): one `PixSet` per triple, no flush. -/
def doSetBatchLeds (ledIndex : Nat) (colors : List Color) (s : State) : State := pixSetRun ledIndex colors s

/-- SetArray (R177): `BitLoad`, no commit. -/
def doSetArray (arrayBytes : List Byte) (s : State) : State := emit (.bitLoad arrayBytes) s

/-- SetArrayBit (R178): `BitSet`, no commit. -/
def doSetArrayBit (bitIndex : Nat) (bitValue : Bool) (s : State) : State := emit (.bitSet bitIndex bitValue) s

/-- Reset (R181): request the restart and halt. -/
def doReset (s : State) : State := halt (emit .restartReq s)

/-- `Execute(cmd, now)` (R170). It is never called with Malformed or None; their rules (R179, R180) change nothing. -/
def execute (cmd : Command) (s : State) : State :=
  match cmd with
  | .none => s
  | .malformed _ => s
  | .getState => doGetState s
  | .latch => doLatch s
  | .clearLeds => doClearLeds s
  | .setOneLed ledIndex color => doSetOneLed ledIndex color s
  | .setBatchLeds ledIndex colors => doSetBatchLeds ledIndex colors s
  | .setArray arrayBytes => doSetArray arrayBytes s
  | .setArrayBit bitIndex bitValue => doSetArrayBit bitIndex bitValue s
  | .reset => doReset s

/-- A good frame whose command returns (R117): bookkeeping and effect in the order of `BOOKKEEP`. -/
def completeGood (cmd : Command) (s : State) : Result :=
  let s := signalActivity s
  match s.cfg.bookkeep with
  | .before => andThen (countGood s) fun t => .next (execute cmd t)
  | .after => countGood (execute cmd s)

/-- A Reset frame (R117, R181): "this call does not return", so under `After` the increment is skipped (log entry 10). -/
def completeReset (s : State) : Result :=
  let s := signalActivity s
  match s.cfg.bookkeep with
  | .before => andThen (countGood s) fun t => .next (execute .reset t)
  | .after => .next (execute .reset s)

/-- `CompleteFrame(cmd, now)` (40_frame_reader.md R117); None finalizes nothing (R118, R180). -/
def completeFrame (cmd : Command) (s : State) : Result :=
  match cmd with
  | .none => .next s
  | .malformed _ => takeMalformed s
  | .getState => completeGood .getState s
  | .latch => completeGood .latch s
  | .clearLeds => completeGood .clearLeds s
  | .setOneLed ledIndex color => completeGood (.setOneLed ledIndex color) s
  | .setBatchLeds ledIndex colors => completeGood (.setBatchLeds ledIndex colors) s
  | .setArray arrayBytes => completeGood (.setArray arrayBytes) s
  | .setArrayBit bitIndex bitValue => completeGood (.setArrayBit bitIndex bitValue) s
  | .reset => completeReset s

end Sys2Proof.Machine
end

