-- ==== Sys2Proof/Machine/Binary.lean ====
section
/-! DEFINITION. The meanings of the binary commands `G L C O B A 0 1 R` (42_binary_commands.md R152 to R160). -/

namespace Sys2Proof.Machine

/-- Binary `G`: GetState (R152). -/
def execBinaryG (s : State) : Result := completeFrame .getState s

/-- Binary `L`: Latch (R153). -/
def execBinaryL (s : State) : Result := completeFrame .latch s

/-- Binary `C`: ClearLeds (R154). -/
def execBinaryC (s : State) : Result := completeFrame .clearLeds s

/-- Binary `O`: SetOneLed (R155). -/
def execBinaryO (led : Nat) (color : Color) (s : State) : Result := completeFrame (.setOneLed led color) s

/-- Binary `B`: SetBatchLeds (R156). -/
def execBinaryB (start : Nat) (colors : List Color) (s : State) : Result := completeFrame (.setBatchLeds start colors) s

/-- Binary `A`: SetArray (R157). -/
def execBinaryA (bytes : List Byte) (s : State) : Result := completeFrame (.setArray bytes) s

/-- Binary `0`: SetArrayBit with value 0 (R158). -/
def execBinary0 (bit : Nat) (s : State) : Result := completeFrame (.setArrayBit bit false) s

/-- Binary `1`: SetArrayBit with value 1 (R159). -/
def execBinary1 (bit : Nat) (s : State) : Result := completeFrame (.setArrayBit bit true) s

/-- Binary `R`: Reset (R160). -/
def execBinaryR (s : State) : Result := completeFrame .reset s

end Sys2Proof.Machine
end

