-- ==== Sys2Proof/Machine/TextA.lean ====
section
/-! DEFINITION. The meanings of the TextA commands `G L C O` (41_text_commands.md R136 to R139). -/

namespace Sys2Proof.Machine

/-- TextA `G`: GetState (R136). -/
def execTextAG (s : State) : Result := completeFrame .getState s

/-- TextA `L`: Latch (R137). -/
def execTextAL (s : State) : Result := completeFrame .latch s

/-- TextA `C`: ClearLeds (R138). -/
def execTextAC (s : State) : Result := completeFrame .clearLeds s

/-- TextA `O`: SetOneLed (R139). -/
def execTextAO (led : Nat) (color : Color) (s : State) : Result := completeFrame (.setOneLed led color) s

end Sys2Proof.Machine
end

