-- ==== Sys2Proof/Machine/TextB.lean ====
section
/-! DEFINITION. The meanings of the TextB commands `S X L` (41_text_commands.md R140 to R142). -/

namespace Sys2Proof.Machine

/-- TextB `S`: GetState (R140). -/
def execTextBS (s : State) : Result := completeFrame .getState s

/-- TextB `X`: ClearLeds (R141). -/
def execTextBX (s : State) : Result := completeFrame .clearLeds s

/-- TextB `L`: SetOneLed (R142). -/
def execTextBL (led : Nat) (color : Color) (s : State) : Result := completeFrame (.setOneLed led color) s

end Sys2Proof.Machine
end

