-- ==== Sys2Proof/Machine/Dispatch.lean ====
section
/-! DEFINITION. One arm per instruction. -/

namespace Sys2Proof.Machine

def exec (i : Instr) (s : State) : Host.Outcome State Fault Refusal :=
  match i with
  | .textAG => Sys2Proof.Machine.execTextAG s
  | .textAL => Sys2Proof.Machine.execTextAL s
  | .textAC => Sys2Proof.Machine.execTextAC s
  | .textAO led color => Sys2Proof.Machine.execTextAO led color s
  | .textBS => Sys2Proof.Machine.execTextBS s
  | .textBX => Sys2Proof.Machine.execTextBX s
  | .textBL led color => Sys2Proof.Machine.execTextBL led color s
  | .binaryG => Sys2Proof.Machine.execBinaryG s
  | .binaryL => Sys2Proof.Machine.execBinaryL s
  | .binaryC => Sys2Proof.Machine.execBinaryC s
  | .binaryO led color => Sys2Proof.Machine.execBinaryO led color s
  | .binaryB start colors => Sys2Proof.Machine.execBinaryB start colors s
  | .binaryA bytes => Sys2Proof.Machine.execBinaryA bytes s
  | .binary0 bit => Sys2Proof.Machine.execBinary0 bit s
  | .binary1 bit => Sys2Proof.Machine.execBinary1 bit s
  | .binaryR => Sys2Proof.Machine.execBinaryR s

end Sys2Proof.Machine
end

