-- ==== Sys2Proof/Machine/Reader.lean ====
section
/-! DEFINITION. The Frame Reader and the handling of each event (40_frame_reader.md R110 to R122), and placing the next instruction. -/

namespace Sys2Proof.Machine

/-- A data byte (R113): stored at the cursor while it is below `CAP`, discarded after. -/
def storeByte (b : Byte) (s : State) : State :=
  if s.cur < s.cfg.cap then advanceReader (s.setMem (s.mem.fbStore s.cur b)) else s

/-- `FB[0..cur-1]`, the frame handed to the decoder (10_state.md R21). -/
def currentFrame (s : State) : List Byte := s.mem.fb.take s.cur

/-- The decoded frame is completed: a good one by its instruction, a bad one by the exception (R117). -/
def finishFrame (d : Except MalformedCause Instr) (s : State) : Result :=
  match d with
  | .ok i => exec i s
  | .error cause => completeFrame (.malformed cause) s

/-- The terminator (R114): Overflow does not consult the decoder; the reader is cleared whether or not the frame is good. -/
def endLine (s : State) : Result :=
  let d := if s.ovf then .error .frameOverflow else decode s.cfg (currentFrame s)
  finishFrame d (clearReader s)

/-- `RxByte(b, now)` (R113, R114). -/
def rxByte (b : Byte) (s : State) : Result := if b = chLF then endLine s else .next (storeByte b s)

/-- `Packet(p, now)` (R119). -/
def rxPacket (p : List Byte) (s : State) : Result := finishFrame (decode s.cfg p) s

/-- One input event. `ExtReset` is admitted always (70_reset_and_hazards.md R240); `halted` ignores every other event (R111, 10_state.md
R35; log entry 7); `RxByte` is admitted in text protocols, `Packet` of at most `PKT_MAX` bytes in Binary (00_scope.md R7; log entry 8). -/
def handle (e : Event) (s : State) : Result :=
  match e with
  | .extReset => .next (extReset s)
  | .rxByte b now =>
    if s.halted then .next s
    else if s.cfg.isText then rxByte b (s.setNow now)
    else .fault .portAbsent
  | .packet p now =>
    if s.halted then .next s
    else if s.cfg.isText then .fault .portAbsent
    else if p.length ≤ s.cfg.pktMax then rxPacket p (s.setNow now)
    else .fault .packetTooLong
  | .tick now => if s.halted then .next s else .next (tick (s.setNow now))

/-- Take the next event and handle it; with none pending nothing happens (R118, 43_dispatcher.md R180; log entry 2). A configuration
outside the table of 00_scope.md R8 is refused (log entry 9). -/
def nextEvent (s : State) : Result :=
  if s.cfg.wf then
    match s.inputs with
    | [] => .next s
    | e :: rest => handle e (s.setInputs rest)
  else .refused .configOutsideTable

/-- Place a text line in the frame buffer, its terminator being the next event. -/
def placeLine (f : List Byte) (s : State) : State :=
  ((s.setMem { s.mem with fb := f ++ s.mem.fb.drop f.length }).setReader f.length (decide (f.length = s.cfg.cap))).setInputs
    (.rxByte chLF s.now :: s.inputs)

/-- Make a packet the next event. -/
def placePacket (p : List Byte) (s : State) : State := s.setInputs (.packet p s.now :: s.inputs)

/-- Make the frame of a table word the next frame the core finalizes, in the word's protocol, the core not halted (log entry 14). -/
def placeTableWord (nbits w : Nat) (s : State) : State :=
  let f := tableFrame s.cfg nbits w
  let s := { s with cfg := tableConfig s.cfg nbits w, halted := false }
  if s.cfg.isText then placeLine f s else placePacket f s

end Sys2Proof.Machine
end

