-- ==== Sys2Proof/Machine/Step.lean ====
section
/-! DEFINITION. The step: one input event, processed to completion (00_scope.md R7). -/

namespace Sys2Proof.Machine

/-- One step of the core (00_scope.md R7): the next pending event is handled whole. -/
def step (s : State) : Host.Outcome State Fault Refusal := nextEvent s

/-- `s` with the instruction of a table word as the one the next step runs (log entry 14). -/
def State.withFetchWord (s : State) (nbits w : Nat) : State := placeTableWord nbits w s

end Sys2Proof.Machine
end

