-- ==== Sys2Proof/Safety.lean ====
section
/-! DEFINITION. The terms claims are stated in: the invariant of a run, what a step issued, the host's side of the status frame, and the
registers after a good frame. Nothing here is used by the machine. -/

namespace Sys2Proof

open Machine

/-! ## The invariant -/

/-- A field that does not exist in the configuration keeps its reset value (10_state.md R20 "exists when"), so `halted` can only be 1 in
Binary (40_frame_reader.md R111). -/
def Machine.State.absentFieldsAtReset (s : State) : Prop :=
  (s.cfg.proto ≠ .binary → s.act = false ∧ s.halted = false) ∧
  (s.cfg.report ≠ .push → s.dirty = false ∧ s.lastSent = 0#32) ∧
  (s.cfg.hasLastCmd = false → s.lastCmd = 0#32) ∧
  (s.cfg.proto = .binary → s.cur = 0 ∧ s.ovf = false)

/-- The invariant of a run: an admitted configuration, memories of their fixed lengths, the cursor within `0..CAP` (10_state.md R22), the
overflow flag exactly at capacity (R24), absent fields at reset. -/
def Machine.State.Inv (s : State) : Prop :=
  s.cfg.wf = true ∧ s.mem.wf s.cfg ∧ s.cur ≤ s.cfg.cap ∧ (s.ovf = true ↔ s.cur = s.cfg.cap) ∧ s.absentFieldsAtReset

/-! ## Outputs -/

/-- The output operations a step from `s` to `t` issued: `t.out` is `s.out` followed by them. -/
def issued (s t : State) : List OutOp := t.out.drop s.out.length

/-- The reference memories after a list of operations, applied in order (20_memory.md R69). -/
def replay (c : Config) (ops : List OutOp) (m : Memory) : Memory := ops.foldl (fun m op => m.apply c op) m

/-- A mutation of the pixel sink's contents (10_state.md R41). -/
def Machine.OutOp.isPixelMutation : OutOp → Bool
  | .pixSet _ _ => true
  | .pixFlush => false
  | .bitSet _ _ => false
  | .bitLoad _ => false
  | .bitCommit => false
  | .outWrite _ => false
  | .actToggle => false
  | .restartReq => false

/-- A mutation of the bit sink's contents (10_state.md R41). -/
def Machine.OutOp.isBitMutation : OutOp → Bool
  | .pixSet _ _ => false
  | .pixFlush => false
  | .bitSet _ _ => true
  | .bitLoad _ => true
  | .bitCommit => false
  | .outWrite _ => false
  | .actToggle => false
  | .restartReq => false

/-- The activity toggle that comes first in a packet's output (43_dispatcher.md R171). -/
def signalOps (c : Config) : List OutOp := if c.proto = .binary then [.actToggle] else []

/-- The registers after a good frame (40_frame_reader.md R117): one more good frame, its time where `lastCmd` exists, the indicator
inverted in Binary. Memories, output and the flags a command writes are as before. -/
def afterGood (s : State) : State :=
  { s with
    cmdRx := s.cmdRx + 1#32
    lastCmd := if s.cfg.statusLField = true ∧ s.cfg.proto ≠ .binary then s.now else s.lastCmd
    act := if s.cfg.proto = .binary then !s.act else s.act }

/-- The state after a bad frame (60_exceptions.md R216): one more bad frame, in Binary the indicator inverted and its toggle issued. -/
def afterBad (s : State) : State :=
  { s with
    badRx := s.badRx + 1#32
    act := if s.cfg.proto = .binary then !s.act else s.act
    out := s.out ++ signalOps s.cfg }

/-- The bytes of a 32-bit number, most significant first (20_memory.md R61). -/
def bigEndian (v : Nat) : List Byte :=
  [BitVec.ofNat 8 (v / 16777216), BitVec.ofNat 8 (v / 65536), BitVec.ofNat 8 (v / 256), BitVec.ofNat 8 v]

/-- The status frame for `good` and `bad` frames counted and `since` ms after the last good one, as 44_state_reporter.md R191 and R192
spell it: `S` and two big-endian numbers, or `C:<n>;B:<n>;` with `L:<n>;` under `STATUS_L_FIELD`, then CR LF. -/
def reportBytes (c : Config) (good bad since : Nat) : List Byte :=
  if c.proto = .binary then 0x53#8 :: (bigEndian good ++ bigEndian bad)
  else
    [0x43#8, 0x3A#8] ++ dec good ++ [0x3B#8, 0x42#8, 0x3A#8] ++ dec bad ++ [0x3B#8] ++
      (if c.statusLField = true then [0x4C#8, 0x3A#8] ++ dec since ++ [0x3B#8] else []) ++ [0x0D#8, 0x0A#8]

/-- Reading bit index `k` of the packed bytes (20_memory.md R63). -/
def bitAt (bytes : List Byte) (k : Nat) : Option Bool := (bytes[k / 8]?).map fun b => b.getLsbD (k % 8)

/-! ## Events -/

/-- The event is `ExtReset`. -/
def Machine.Event.isExtReset : Event → Bool
  | .extReset => true
  | .rxByte _ _ => false
  | .packet _ _ => false
  | .tick _ => false

/-- The event finalizes a frame: a terminator or a packet (40_frame_reader.md R117). -/
def Machine.Event.finalizes : Event → Bool
  | .extReset => false
  | .rxByte b _ => decide (b = chLF)
  | .packet _ _ => true
  | .tick _ => false

/-- Bytes arriving one at a time, each with its clock sample. -/
def byteEvents (bytes : List (Byte × Word32)) : List Event := bytes.map fun x => .rxByte x.1 x.2

/-- The number of terminators among the bytes. -/
def terminators (bytes : List (Byte × Word32)) : Nat := (bytes.filter fun x => decide (x.1 = chLF)).length

/-! ## The host's side (44_state_reporter.md R200) -/

/-- A big-endian 32-bit number. -/
def hostReadBE32 (a b c d : Byte) : Nat := a.toNat * 16777216 + b.toNat * 65536 + c.toNat * 256 + d.toNat

/-- The host reads a binary status packet: bytes 1 to 4 and 5 to 8. -/
def hostReadPacket : List Byte → Option (Nat × Nat)
  | [tag, a, b, c, d, e, f, g, h] => if tag = 0x53#8 then some (hostReadBE32 a b c d, hostReadBE32 e f g h) else none
  | _ => none

/-- The value a list of decimal digits spells, most significant first. -/
def digitsValue (ds : List Byte) : Nat := ds.foldl (fun v d => v * 10 + (d.toNat - 0x30)) 0

/-- Every byte is one of `'0'..'9'`. -/
def allDigits (ds : List Byte) : Prop := ∀ d ∈ ds, 0x30 ≤ d.toNat ∧ d.toNat ≤ 0x39

/-- The optional sign in front of a decimal field: nothing, or one `'-'` (41_text_commands.md R131). -/
def isSign (bytes : List Byte) : Prop := bytes = [] ∨ bytes = [0x2D#8]

/-- The host reads the decimal digits up to `';'`: their value and what follows the `';'`. -/
def hostReadDigits (v : Nat) : List Byte → Option (Nat × List Byte)
  | [] => none
  | b :: more =>
    if b = 0x3B#8 then some (v, more)
    else if 0x30 ≤ b.toNat ∧ b.toNat ≤ 0x39 then hostReadDigits (v * 10 + (b.toNat - 0x30)) more
    else none

/-- The host reads `C:<n>;B:<n>;` at the head of a text status line. -/
def hostReadLine : List Byte → Option (Nat × Nat)
  | 0x43#8 :: 0x3A#8 :: more =>
    match hostReadDigits 0 more with
    | some (good, 0x42#8 :: 0x3A#8 :: more') =>
      match hostReadDigits 0 more' with
      | some (bad, _) => some (good, bad)
      | none => none
    | _ => none
  | _ => none

end Sys2Proof
end

