-- ==== Sys2Proof/Certificates/Slice0/Obligations.lean ====
section
/-! DEFINITION. The statements for the provers. -/

open Sys2Proof Sys2Proof.Machine

/-! ## Encoding and decoding -/

/-- Every operand bit of an encoding survives: decoding the frame of an instruction of the instance gives the instruction back
(30_encoding.md R83, R85, R86, R91). -/
def Obligations.DecodeEncodeRoundTrip : Prop :=
  ∀ (c : Config) (i : Instr), i.wf c = true → decode c (encode i) = .ok i

/-- A binary packet decodes to an instruction only if it is exactly that instruction's encoding: no byte is ignored, none is added
(42_binary_commands.md R150, R151). -/
def Obligations.BinaryPacketIsItsEncoding : Prop :=
  ∀ (c : Config) (p : List Byte) (i : Instr), c.proto = .binary → decode c p = .ok i → encode i = p

/-- What the decoder accepts belongs to the instance: its protocol, a sink that is present, operands in range (30_encoding.md R84, R87 to R90). -/
def Obligations.DecodedInstrIsWellFormed : Prop :=
  ∀ (c : Config) (f : List Byte) (i : Instr), decode c f = .ok i → i.wf c = true

/-- Words written out from the spec's encodings (95_test_vectors.md S5, S7, T33, T35, B13, B18, B26) decode to their instructions. -/
def Obligations.SpecWordsDecode : Prop :=
  decode { Config.base with proto := .textA } [0x4F#8, 0x31#8, 0x30#8, 0x2C#8, 0x31#8, 0x36#8, 0x37#8, 0x31#8, 0x31#8, 0x36#8, 0x38#8, 0x30#8] =
      .ok (.textAO 10 ⟨255#8, 0#8, 0#8⟩) ∧
    decode { Config.base with proto := .textB } [0x4C#8, 0x33#8, 0x2C#8, 0x32#8, 0x35#8, 0x35#8] = .ok (.textBL 3 ⟨0#8, 0#8, 255#8⟩) ∧
    decode { Config.base with proto := .textB } [0x58#8] = .ok .textBX ∧
    decode Config.base [0x42#8, 0x00#8, 0xFF#8, 0x00#8, 0x00#8, 0x00#8, 0xFF#8, 0x00#8] =
      .ok (.binaryB 0 [⟨255#8, 0#8, 0#8⟩, ⟨0#8, 255#8, 0#8⟩]) ∧
    decode Config.base [0x41#8, 0x01#8, 0#8, 0#8, 0#8, 0#8, 0#8, 0#8, 0#8, 0#8, 0x80#8] =
      .ok (.binaryA [0x01#8, 0#8, 0#8, 0#8, 0#8, 0#8, 0#8, 0#8, 0#8, 0x80#8]) ∧
    decode Config.base [0x31#8, 0x09#8] = .ok (.binary1 9) ∧ decode Config.base [0x52#8] = .ok .binaryR

/-- A first byte outside the active opcode map, or whose sink is absent, is UnknownOpcode whatever follows, and the empty frame is EmptyFrame
(30_encoding.md R90, R92, R93). -/
def Obligations.IllegalFirstByteIsMalformed : Prop :=
  ∀ (c : Config) (op : Byte) (tail : List Byte),
    decode c [] = .error .emptyFrame ∧
    (c.proto = .textA → op ≠ 0x47#8 → op ≠ 0x4C#8 → (c.hasPixels = true → op ≠ 0x43#8 ∧ op ≠ 0x4F#8) →
      decode c (op :: tail) = .error .unknownOpcode) ∧
    (c.proto = .textB → op ≠ 0x53#8 → (c.hasPixels = true → op ≠ 0x58#8 ∧ op ≠ 0x4C#8) →
      decode c (op :: tail) = .error .unknownOpcode) ∧
    (c.proto = .binary → op ≠ 0x47#8 → op ≠ 0x4C#8 → op ≠ 0x52#8 → (c.hasPixels = true → op ≠ 0x43#8 ∧ op ≠ 0x4F#8 ∧ op ≠ 0x42#8) →
      (c.hasBitarray = true → op ≠ 0x41#8 ∧ op ≠ 0x30#8 ∧ op ≠ 0x31#8) → decode c (op :: tail) = .error .unknownOpcode)

/-- The size law of the binary packets (42_binary_commands.md R150, R151): an opcode of the map with its exact size is good, with any other
size it is WrongLength. -/
def Obligations.BinarySizeLaw : Prop :=
  ∀ (c : Config) (op : Byte) (payload : List Byte) (goodSize : Prop), c.proto = .binary →
    ((op = 0x47#8 ∨ op = 0x4C#8 ∨ op = 0x52#8 ∨ (op = 0x43#8 ∧ c.hasPixels = true)) ∧ (goodSize ↔ 1 + payload.length = 1) ∨
      op = 0x4F#8 ∧ c.hasPixels = true ∧ (goodSize ↔ 1 + payload.length = 5) ∨
      op = 0x42#8 ∧ c.hasPixels = true ∧ (goodSize ↔ 5 ≤ 1 + payload.length ∧ (1 + payload.length - 2) % 3 = 0) ∨
      op = 0x41#8 ∧ c.hasBitarray = true ∧ (goodSize ↔ 1 + payload.length = 1 + c.m / 8) ∨
      (op = 0x30#8 ∨ op = 0x31#8) ∧ c.hasBitarray = true ∧ (goodSize ↔ 1 + payload.length = 2)) →
    (goodSize → ∃ i, decode c (op :: payload) = .ok i) ∧ (¬goodSize → decode c (op :: payload) = .error .wrongLength)

/-- A text set-pixel line of two plain decimal numbers of any length: the exact numbers the digits spell, range-checked, the colour split
into its three bytes (41_text_commands.md R131 to R133, 20_memory.md R62). -/
def Obligations.TextSetPixelReadsDecimals : Prop :=
  ∀ (c : Config) (op : Byte) (mk : Nat → Color → Instr) (d1 d2 : List Byte),
    (c.proto = .textA ∧ op = 0x4F#8 ∧ mk = Instr.textAO ∨ c.proto = .textB ∧ op = 0x4C#8 ∧ mk = Instr.textBL) → c.hasPixels = true →
    allDigits d1 → allDigits d2 → d1 ≠ [] → d2 ≠ [] →
    decode c (op :: (d1 ++ 0x2C#8 :: d2)) =
      if digitsValue d1 ≤ 255 ∧ digitsValue d2 ≤ 16777215 then
        .ok (mk (digitsValue d1)
          ⟨BitVec.ofNat 8 (digitsValue d2 / 65536), BitVec.ofNat 8 (digitsValue d2 / 256), BitVec.ofNat 8 (digitsValue d2)⟩)
      else .error .outOfRange

/-- A leading minus (41_text_commands.md R132), whatever the other field is (signed, empty or plain): `-0` is 0; a negative value is
NegativeField under Reject and reads as `0` under ClampZero. The second field is reached only past a good first one, that is, one whose
line with colour `0` decodes. `rest` is any rest of the line. -/
def Obligations.TextNegativeFields : Prop :=
  ∀ (c : Config) (op : Byte) (sign1 sign2 d1 d2 rest : List Byte),
    (c.proto = .textA ∧ op = 0x4F#8 ∨ c.proto = .textB ∧ op = 0x4C#8) → c.hasPixels = true →
    isSign sign1 → isSign sign2 → allDigits d1 → allDigits d2 →
    (d1 ≠ [] → digitsValue d1 = 0 ∨ c.negPolicy = .clampZero →
      decode c (op :: 0x2D#8 :: (d1 ++ 0x2C#8 :: rest)) = decode c (op :: 0x30#8 :: 0x2C#8 :: rest)) ∧
    (digitsValue d1 ≠ 0 → c.negPolicy = .reject →
      decode c (op :: 0x2D#8 :: (d1 ++ 0x2C#8 :: (sign2 ++ d2))) = .error .negativeField) ∧
    (d2 ≠ [] → digitsValue d2 = 0 ∨ c.negPolicy = .clampZero →
      decode c (op :: (sign1 ++ d1 ++ 0x2C#8 :: 0x2D#8 :: d2)) = decode c (op :: (sign1 ++ d1 ++ [0x2C#8, 0x30#8]))) ∧
    (digitsValue d2 ≠ 0 → c.negPolicy = .reject → (∃ i, decode c (op :: (sign1 ++ d1 ++ [0x2C#8, 0x30#8])) = .ok i) →
      decode c (op :: (sign1 ++ d1 ++ 0x2C#8 :: 0x2D#8 :: d2)) = .error .negativeField)

/-- A field with no digits, with or without a minus (41_text_commands.md R132), whatever the other field is (signed, empty or plain):
EmptyField or the value 0, by `EMPTY_INT`. -/
def Obligations.TextEmptyFields : Prop :=
  ∀ (c : Config) (op : Byte) (sign sign1 sign2 d1 d2 rest : List Byte),
    (c.proto = .textA ∧ op = 0x4F#8 ∨ c.proto = .textB ∧ op = 0x4C#8) → c.hasPixels = true →
    isSign sign → isSign sign1 → isSign sign2 → allDigits d1 → allDigits d2 →
    (c.emptyInt = .zero → decode c (op :: (sign ++ 0x2C#8 :: rest)) = decode c (op :: 0x30#8 :: 0x2C#8 :: rest)) ∧
    (c.emptyInt = .malformed → decode c (op :: (sign ++ 0x2C#8 :: (sign2 ++ d2))) = .error .emptyField) ∧
    (c.emptyInt = .zero →
      decode c (op :: (sign1 ++ d1 ++ 0x2C#8 :: sign)) = decode c (op :: (sign1 ++ d1 ++ [0x2C#8, 0x30#8]))) ∧
    (c.emptyInt = .malformed → (∃ i, decode c (op :: (sign1 ++ d1 ++ [0x2C#8, 0x30#8])) = .ok i) →
      decode c (op :: (sign1 ++ d1 ++ 0x2C#8 :: sign)) = .error .emptyField)

/-- The separator rule (41_text_commands.md R133), after any scan: a sign or none, digits or none (R131). The end of the line, or any byte
but `','`, right after the first scan is MissingSeparator; so is anything at all right after the second. `x` is the byte that stops the
scan: no digit, and no `'-'` where the scan would still take it as its sign. `more` is any rest of the line. -/
def Obligations.TextSeparatorsAreChecked : Prop :=
  ∀ (c : Config) (op x : Byte) (sign1 sign2 d1 d2 more : List Byte),
    (c.proto = .textA ∧ op = 0x4F#8 ∨ c.proto = .textB ∧ op = 0x4C#8) → c.hasPixels = true →
    isSign sign1 → isSign sign2 → allDigits d1 → allDigits d2 → ¬(0x30 ≤ x.toNat ∧ x.toNat ≤ 0x39) → x ≠ 0x0A#8 →
    decode c (op :: (sign1 ++ d1)) = .error .missingSeparator ∧
    (x ≠ 0x2C#8 → (sign1 ++ d1 = [] → x ≠ 0x2D#8) → decode c (op :: (sign1 ++ d1 ++ x :: more)) = .error .missingSeparator) ∧
    ((sign2 ++ d2 = [] → x ≠ 0x2D#8) →
      decode c (op :: (sign1 ++ d1 ++ 0x2C#8 :: (sign2 ++ d2 ++ x :: more))) = .error .missingSeparator)

/-- The text opcodes without operand (41_text_commands.md R134, R135, R145): bytes after the letter are ignored or make the frame
TrailingBytes, by `TEXT_TRAILING`. -/
def Obligations.TextNoOperandTail : Prop :=
  ∀ (c : Config) (op : Byte) (tail : List Byte) (i : Instr),
    (c.proto = .textA ∧ (op = 0x47#8 ∧ i = .textAG ∨ op = 0x4C#8 ∧ i = .textAL ∨ op = 0x43#8 ∧ c.hasPixels = true ∧ i = .textAC) ∨
      c.proto = .textB ∧ (op = 0x53#8 ∧ i = .textBS ∨ op = 0x58#8 ∧ c.hasPixels = true ∧ i = .textBX)) →
    decode c (op :: tail) = if 1 < (op :: tail).length ∧ c.textTrailing = .malformed then .error .trailingBytes else .ok i

/-! ## The reference memories -/

/-- `PixSet(i, r, g, b)` (20_memory.md R52): the pixel `i`, or by `PIX_OOR` none or the last pixel; every other pixel and memory as before. -/
def Obligations.PixSetWritesOnePixel : Prop :=
  ∀ (c : Config) (i : Nat) (col : Color) (m : Memory), 1 ≤ c.n → m.pixp.length = c.n →
    (∀ j, (m.pixSet c i col).pixp[j]? =
      if j < c.n ∧ (j = i ∨ c.n ≤ i ∧ c.pixOor = .clamp ∧ j = c.n - 1) then some col else m.pixp[j]?) ∧
    (m.pixSet c i col).pixv = m.pixv ∧ (m.pixSet c i col).bitp = m.bitp ∧ (m.pixSet c i col).bitv = m.bitv ∧
    (m.pixSet c i col).fb = m.fb

/-- `BitSet(k, v)` (20_memory.md R55, R63): bit `k mod 8` of byte `k >> 3`, or by `BIT_OOR` none or the last bit; every other bit and
memory as before. -/
def Obligations.BitSetWritesOneBit : Prop :=
  ∀ (c : Config) (k : Nat) (v : Bool) (m : Memory), 8 ≤ c.m → c.m % 8 = 0 → m.bitp.length = c.m / 8 →
    (∀ j, bitAt (m.bitSet c k v).bitp j =
      if j < c.m ∧ (j = k ∨ c.m ≤ k ∧ c.bitOor = .clamp ∧ j = c.m - 1) then some v else bitAt m.bitp j) ∧
    (m.bitSet c k v).bitp.length = m.bitp.length ∧
    (m.bitSet c k v).bitv = m.bitv ∧ (m.bitSet c k v).pixp = m.pixp ∧ (m.bitSet c k v).pixv = m.pixv ∧ (m.bitSet c k v).fb = m.fb

/-- `BitLoad(bytes)` (20_memory.md R56): the byte replacement, and the same as `BitSet(k, bytes[k >> 3][k mod 8])` for `k = 0, …, M-1`. -/
def Obligations.BitLoadIsBitSetsInOrder : Prop :=
  ∀ (c : Config) (bytes : List Byte) (m : Memory), c.m % 8 = 0 → bytes.length = c.m / 8 → m.bitp.length = c.m / 8 →
    m.bitLoad bytes = { m with bitp := bytes } ∧
    (List.range c.m).foldl (fun acc k => acc.bitSet c k ((bytes.getD (k >>> 3) 0#8).getLsbD (k % 8))) m = m.bitLoad bytes

/-! ## What each command does: completion and result -/

/-- GetState, on-demand policy, Binary (42_binary_commands.md R152, 44_state_reporter.md R191): one good frame, the toggle, and the 9-byte
packet at once; the reported count includes this command under `Before` only. -/
def Obligations.BinaryGetStateReports : Prop :=
  ∀ s : State, s.cmdRx ≠ 0xFFFFFFFF#32 → s.cfg.proto = .binary → s.cfg.report = .onDemand →
    exec .binaryG s = .next { afterGood s with
      out := s.out ++ [.actToggle, .outWrite (0x53#8 ::
        (bigEndian (if s.cfg.bookkeep = .before then s.cmdRx.toNat + 1 else s.cmdRx.toNat) ++ bigEndian s.badRx.toNat))] }

/-- GetState, on-demand policy, text (41_text_commands.md R136, R140; 44_state_reporter.md R192): the status line at once. The `L:` value
is 0 under `Before` (this command is the last good one); under `After` it is the time since the last good command, 0 if that time is in
the future of `now`. -/
def Obligations.TextGetStateReports : Prop :=
  ∀ (s : State) (i : Instr), (s.cfg.proto = .textA ∧ i = .textAG ∨ s.cfg.proto = .textB ∧ i = .textBS) →
    s.cmdRx ≠ 0xFFFFFFFF#32 → s.cfg.report = .onDemand →
    exec i s = .next { afterGood s with
      out := s.out ++ [.outWrite (reportBytes s.cfg
        (if s.cfg.bookkeep = .before then s.cmdRx.toNat + 1 else s.cmdRx.toNat) s.badRx.toNat
        (if s.cfg.bookkeep = .before then 0 else s.now.toNat - s.lastCmd.toNat))] }

/-- GetState, push policy, every protocol (43_dispatcher.md R172): `dirty <- 1`, nothing is written. -/
def Obligations.GetStateMarksDirtyUnderPush : Prop :=
  ∀ (s : State) (i : Instr), (i = .textAG ∨ i = .textBS ∨ i = .binaryG) → s.cmdRx ≠ 0xFFFFFFFF#32 → s.cfg.report = .push →
    exec i s = .next { afterGood s with dirty := true, out := s.out ++ signalOps s.cfg }

/-- Latch (43_dispatcher.md R173): the pixel flush, then the bit commit, of the sinks that exist. -/
def Obligations.LatchPublishesBothSinks : Prop :=
  ∀ (s : State) (i : Instr), (i = .textAL ∨ i = .binaryL) → s.cmdRx ≠ 0xFFFFFFFF#32 →
    exec i s = .next { afterGood s with
      mem := { s.mem with
        pixv := if s.cfg.hasPixels = true then s.mem.pixp else s.mem.pixv
        bitv := if s.cfg.hasBitarray = true then s.mem.bitp else s.mem.bitv }
      out := s.out ++ signalOps s.cfg ++ (if s.cfg.hasPixels = true then [.pixFlush] else []) ++
        (if s.cfg.hasBitarray = true then [.bitCommit] else []) }

/-- ClearLeds (43_dispatcher.md R174): every pixel (0,0,0), pending and visible; the `N` writes ascending, then the flush; whatever `AUTO_FLUSH`. -/
def Obligations.ClearLedsDarkensEveryPixel : Prop :=
  ∀ (s : State) (i : Instr), (i = .textAC ∨ i = .textBX ∨ i = .binaryC) → s.cmdRx ≠ 0xFFFFFFFF#32 → s.mem.pixp.length = s.cfg.n →
    exec i s = .next { afterGood s with
      mem := { s.mem with
        pixp := List.replicate s.cfg.n ⟨0#8, 0#8, 0#8⟩
        pixv := List.replicate s.cfg.n ⟨0#8, 0#8, 0#8⟩ }
      out := s.out ++ signalOps s.cfg ++ (List.range s.cfg.n).map (fun k => .pixSet k ⟨0#8, 0#8, 0#8⟩) ++ [.pixFlush] }

/-- SetOneLed (43_dispatcher.md R175; 20_memory.md R52): one pending pixel, flushed with all the others under `AUTO_FLUSH` only. -/
def Obligations.SetOneLedWritesItsPixel : Prop :=
  ∀ (s : State) (i : Instr) (led : Nat) (col : Color), (i = .textAO led col ∨ i = .textBL led col ∨ i = .binaryO led col) →
    s.cmdRx ≠ 0xFFFFFFFF#32 →
    exec i s = .next { afterGood s with
      mem :=
        let p := if led < s.cfg.n then s.mem.pixp.set led col
          else if s.cfg.pixOor = .clamp then s.mem.pixp.set (s.cfg.n - 1) col else s.mem.pixp
        { s.mem with pixp := p, pixv := if s.cfg.autoFlush = true then p else s.mem.pixv }
      out := s.out ++ signalOps s.cfg ++ [.pixSet led col] ++ (if s.cfg.autoFlush = true then [.pixFlush] else []) }

/-- SetBatchLeds (43_dispatcher.md R176): pixel `start + j` takes triple `j`, in order, no wrap at 256, no flush; triples past the strip go
to the last pixel under Clamp, where the last one wins, and vanish under Reject. -/
def Obligations.SetBatchLedsWritesItsRun : Prop :=
  ∀ (s : State) (start : Nat) (cols : List Color), s.cmdRx ≠ 0xFFFFFFFF#32 → 1 ≤ s.cfg.n → s.mem.pixp.length = s.cfg.n → cols ≠ [] →
    ∃ pixels : List Color,
      exec (.binaryB start cols) s = .next { afterGood s with
        mem := { s.mem with pixp := pixels }
        out := s.out ++ signalOps s.cfg ++ cols.mapIdx (fun j col => OutOp.pixSet (start + j) col) } ∧
      pixels.length = s.cfg.n ∧
      ∀ j, j < s.cfg.n → pixels[j]? =
        if s.cfg.pixOor = .clamp ∧ j = s.cfg.n - 1 ∧ s.cfg.n < start + cols.length then cols.getLast?
        else if start ≤ j ∧ j < start + cols.length then cols[j - start]?
        else s.mem.pixp[j]?

/-- SetArray (43_dispatcher.md R177): the pending bytes become the payload; nothing is committed. -/
def Obligations.SetArrayReplacesBits : Prop :=
  ∀ (s : State) (bytes : List Byte), s.cmdRx ≠ 0xFFFFFFFF#32 → bytes.length = s.cfg.m / 8 → s.mem.bitp.length = s.cfg.m / 8 →
    exec (.binaryA bytes) s = .next { afterGood s with
      mem := { s.mem with bitp := bytes }, out := s.out ++ signalOps s.cfg ++ [.bitLoad bytes] }

/-- SetArrayBit (43_dispatcher.md R178; 20_memory.md R55): exactly one pending bit, the value in the opcode; nothing is committed. -/
def Obligations.SetArrayBitChangesOneBit : Prop :=
  ∀ (s : State) (i : Instr) (bit : Nat) (v : Bool), (i = .binary0 bit ∧ v = false ∨ i = .binary1 bit ∧ v = true) →
    s.cmdRx ≠ 0xFFFFFFFF#32 → 8 ≤ s.cfg.m → s.cfg.m % 8 = 0 → s.mem.bitp.length = s.cfg.m / 8 →
    ∃ bits : List Byte,
      exec i s = .next { afterGood s with
        mem := { s.mem with bitp := bits }, out := s.out ++ signalOps s.cfg ++ [.bitSet bit v] } ∧
      bits.length = s.mem.bitp.length ∧
      ∀ j, bitAt bits j =
        if j < s.cfg.m ∧ (j = bit ∨ s.cfg.m ≤ bit ∧ s.cfg.bitOor = .clamp ∧ j = s.cfg.m - 1) then some v else bitAt s.mem.bitp j

/-- Reset (43_dispatcher.md R181): the restart request and the halt, nothing flushed. Under `Before` the frame is counted first; under
`After` the call does not return, so it is not (the model's choice, log entry 10: the spec calls that increment unobservable). -/
def Obligations.ResetRequestsRestartAndHalts : Prop :=
  ∀ s : State,
    (s.cfg.bookkeep = .before → s.cmdRx ≠ 0xFFFFFFFF#32 →
      exec .binaryR s = .next { afterGood s with halted := true, out := s.out ++ signalOps s.cfg ++ [.restartReq] }) ∧
    (s.cfg.bookkeep = .after →
      exec .binaryR s = .next { s with
        act := if s.cfg.proto = .binary then !s.act else s.act
        halted := true
        out := s.out ++ signalOps s.cfg ++ [.restartReq] })

/-- The increment of a full counter has no meaning (10_state.md R30): every command is refused at `cmdRx = 2^32 - 1`, but for a Reset
that is not counted (log entry 10); below it every command completes. -/
def Obligations.CommandsCompleteBelowCounterTop : Prop :=
  ∀ (s : State) (i : Instr),
    (s.cmdRx ≠ 0xFFFFFFFF#32 → ∃ t, exec i s = .next t) ∧
    (s.cmdRx = 0xFFFFFFFF#32 → ¬(i = .binaryR ∧ s.cfg.bookkeep = .after) → exec i s = .refused .goodCounterExhausted)

/-! ## Frames: what a command leaves unchanged -/

/-- No command writes `cfg`, `FB`, `cur`, `ovf`, `badRx`, `lastSent` (10_state.md R21 to R23, R29, R32) or the model's own fields; only
GetState writes `dirty` (R33), only Reset `halted` (R35); every command but Reset adds one to `cmdRx` and stamps `lastCmd` where that
exists (R28, R31); `act` is inverted in Binary alone (R34). -/
def Obligations.CommandRegisterFrame : Prop :=
  ∀ (s t : State) (i : Instr), exec i s = .next t →
    t.cfg = s.cfg ∧ t.mem.fb = s.mem.fb ∧ t.cur = s.cur ∧ t.ovf = s.ovf ∧ t.badRx = s.badRx ∧ t.lastSent = s.lastSent ∧
    t.inputs = s.inputs ∧ t.now = s.now ∧ t.draws = s.draws ∧
    (i ≠ .textAG → i ≠ .textBS → i ≠ .binaryG → t.dirty = s.dirty) ∧
    (i ≠ .binaryR → t.halted = s.halted ∧ t.cmdRx.toNat = s.cmdRx.toNat + 1 ∧
      t.lastCmd = if s.cfg.statusLField = true ∧ s.cfg.proto ≠ .binary then s.now else s.lastCmd) ∧
    t.act = (if s.cfg.proto = .binary then !s.act else s.act)

/-- The commands that store no sink contents (20_memory.md R60): GetState and Reset change no memory at all, Latch no pending content. -/
def Obligations.NonStoringCommandsMemoryFrame : Prop :=
  ∀ (s t : State) (i : Instr), exec i s = .next t →
    ((i = .textAG ∨ i = .textBS ∨ i = .binaryG ∨ i = .binaryR) → t.mem = s.mem) ∧
    ((i = .textAL ∨ i = .binaryL) → t.mem.pixp = s.mem.pixp ∧ t.mem.bitp = s.mem.bitp ∧ t.mem.fb = s.mem.fb)

/-- The pixel commands (43_dispatcher.md R174 to R176): no bit changes; a pixel other than the ones the command's `PixSet`s address reads as
before; what shows changes only by a flush. -/
def Obligations.PixelCommandsMemoryFrame : Prop :=
  ∀ (s t : State) (i : Instr), exec i s = .next t →
    (∀ led col, (i = .textAO led col ∨ i = .textBL led col ∨ i = .binaryO led col) →
      t.mem.bitp = s.mem.bitp ∧ t.mem.bitv = s.mem.bitv ∧ t.mem.fb = s.mem.fb ∧
      (∀ j, pixTarget s.cfg led ≠ some j → t.mem.pixp[j]? = s.mem.pixp[j]?) ∧
      (s.cfg.autoFlush = false → t.mem.pixv = s.mem.pixv)) ∧
    (∀ start cols, i = .binaryB start cols →
      t.mem.bitp = s.mem.bitp ∧ t.mem.bitv = s.mem.bitv ∧ t.mem.fb = s.mem.fb ∧ t.mem.pixv = s.mem.pixv ∧
      (∀ j, (∀ k, k < cols.length → pixTarget s.cfg (start + k) ≠ some j) → t.mem.pixp[j]? = s.mem.pixp[j]?)) ∧
    ((i = .textAC ∨ i = .textBX ∨ i = .binaryC) → t.mem.bitp = s.mem.bitp ∧ t.mem.bitv = s.mem.bitv ∧ t.mem.fb = s.mem.fb)

/-- The bit commands (43_dispatcher.md R177, R178): no pixel and no visible bit changes; SetArrayBit changes no bit but the one its `BitSet`
addresses. -/
def Obligations.BitCommandsMemoryFrame : Prop :=
  ∀ (s t : State) (i : Instr), exec i s = .next t →
    (∀ bit, (i = .binary0 bit ∨ i = .binary1 bit) →
      t.mem.pixp = s.mem.pixp ∧ t.mem.pixv = s.mem.pixv ∧ t.mem.bitv = s.mem.bitv ∧ t.mem.fb = s.mem.fb ∧
      (∀ j, bitTarget s.cfg bit ≠ some j → bitAt t.mem.bitp j = bitAt s.mem.bitp j)) ∧
    (∀ bytes, i = .binaryA bytes →
      t.mem.pixp = s.mem.pixp ∧ t.mem.pixv = s.mem.pixv ∧ t.mem.bitv = s.mem.bitv ∧ t.mem.fb = s.mem.fb)

/-! ## A step runs the decoded instruction -/

/-- Packet framing (40_frame_reader.md R119): the step of a packet that decodes to `i` is `exec i`, the event taken and its clock sample seen. -/
def Obligations.PacketStepRunsDecodedInstr : Prop :=
  ∀ (s : State) (p : List Byte) (now : Word32) (rest : List Event) (i : Instr),
    s.cfg.wf = true → s.cfg.proto = .binary → s.halted = false → s.inputs = .packet p now :: rest → p.length ≤ s.cfg.pktMax →
    decode s.cfg p = .ok i → step s = exec i { s with inputs := rest, now := now }

/-- Text framing (40_frame_reader.md R114): the step of a terminator whose line did not overflow and decodes to `i` is `exec i`, the event
taken, its clock sample seen, and the reader cleared. -/
def Obligations.TerminatorStepRunsDecodedInstr : Prop :=
  ∀ (s : State) (now : Word32) (rest : List Event) (i : Instr),
    s.cfg.wf = true → s.cfg.proto ≠ .binary → s.halted = false → s.inputs = .rxByte 0x0A#8 now :: rest → s.ovf = false →
    decode s.cfg (s.mem.fb.take s.cur) = .ok i → step s = exec i { s with inputs := rest, now := now, cur := 0, ovf := false }

/-- A data byte (40_frame_reader.md R113): stored at the cursor, the cursor advanced, `ovf` set on reaching `CAP`; at `CAP` it is discarded. -/
def Obligations.DataByteIsStoredOrDiscarded : Prop :=
  ∀ (s : State) (b : Byte) (now : Word32) (rest : List Event),
    s.cfg.wf = true → s.cfg.proto ≠ .binary → s.halted = false → s.inputs = .rxByte b now :: rest → b ≠ 0x0A#8 →
    (s.cur < s.cfg.cap → step s = .next { s with
      inputs := rest
      now := now
      mem := { s.mem with fb := s.mem.fb.set s.cur b }
      cur := s.cur + 1
      ovf := if s.cur + 1 = s.cfg.cap then true else s.ovf }) ∧
    (¬s.cur < s.cfg.cap → step s = .next { s with inputs := rest, now := now })

/-- A Malformed packet (60_exceptions.md R216): `badRx +1` and the activity toggle, nothing else; at the top of the counter it is refused
(10_state.md R30). -/
def Obligations.MalformedPacketIsCounted : Prop :=
  ∀ (s : State) (p : List Byte) (now : Word32) (rest : List Event) (e : MalformedCause),
    s.cfg.wf = true → s.cfg.proto = .binary → s.halted = false → s.inputs = .packet p now :: rest → p.length ≤ s.cfg.pktMax →
    decode s.cfg p = .error e →
    (s.badRx ≠ 0xFFFFFFFF#32 → step s = .next { s with
      inputs := rest, now := now, badRx := s.badRx + 1#32, act := !s.act, out := s.out ++ [.actToggle] }) ∧
    (s.badRx = 0xFFFFFFFF#32 → step s = .refused .badCounterExhausted)

/-- A Malformed line (60_exceptions.md R216; 40_frame_reader.md R114): overflowed, whatever it contains, or rejected by the decoder:
`badRx +1`, the reader cleared, nothing else. -/
def Obligations.MalformedLineIsCounted : Prop :=
  ∀ (s : State) (now : Word32) (rest : List Event),
    s.cfg.wf = true → s.cfg.proto ≠ .binary → s.halted = false → s.inputs = .rxByte 0x0A#8 now :: rest →
    (s.ovf = true ∨ ∃ e, decode s.cfg (s.mem.fb.take s.cur) = .error e) →
    (s.badRx ≠ 0xFFFFFFFF#32 → step s = .next { s with
      inputs := rest, now := now, badRx := s.badRx + 1#32, cur := 0, ovf := false }) ∧
    (s.badRx = 0xFFFFFFFF#32 → step s = .refused .badCounterExhausted)

/-- `Tick` under the push policy (44_state_reporter.md R195 to R197): `lastSent` is clamped to `now`; a status frame is written exactly when
at least `STATE_SEND_MS` have passed and, where required, the state is dirty; then `lastSent <- now`, `dirty <- 0`. -/
def Obligations.PushTickGate : Prop :=
  ∀ (s : State) (now : Word32) (rest : List Event),
    s.cfg.wf = true → s.cfg.report = .push → s.halted = false → s.inputs = .tick now :: rest →
    (s.cfg.stateSendMs.toNat ≤ now.toNat - s.lastSent.toNat ∧ (s.cfg.pushRequiresDirty = true → s.dirty = true) →
      step s = .next { s with
        inputs := rest
        now := now
        lastSent := now
        dirty := false
        lastCmd := if s.cfg.statusLField = true ∧ s.cfg.proto ≠ .binary ∧ now.toNat < s.lastCmd.toNat then now else s.lastCmd
        out := s.out ++ [.outWrite (reportBytes s.cfg s.cmdRx.toNat s.badRx.toNat (now.toNat - s.lastCmd.toNat))] }) ∧
    (¬(s.cfg.stateSendMs.toNat ≤ now.toNat - s.lastSent.toNat ∧ (s.cfg.pushRequiresDirty = true → s.dirty = true)) →
      step s = .next { s with
        inputs := rest, now := now, lastSent := if now.toNat < s.lastSent.toNat then now else s.lastSent })

/-- `Tick` under the on-demand policy (44_state_reporter.md R194): no output, no change; and a step with no event pending changes nothing
(log entry 2). -/
def Obligations.OnDemandTickAndIdleChangeNothing : Prop :=
  ∀ (s : State), s.cfg.wf = true →
    (s.inputs = [] → step s = .next s) ∧
    (∀ now rest, s.cfg.report = .onDemand → s.halted = false → s.inputs = .tick now :: rest →
      step s = .next { s with inputs := rest, now := now })

/-- `ExtReset` (70_reset_and_hazards.md R240): in every state, halted or not, every register at its reset value, the memories complete,
nothing output, `cfg` kept. That `out` and `inputs`, the model's own fields, are kept is log entry 15. -/
def Obligations.ExtResetRestoresResetState : Prop :=
  ∀ (s : State) (rest : List Event), s.cfg.wf = true → s.inputs = .extReset :: rest →
    ∃ t, step s = .next t ∧ t.cur = 0 ∧ t.ovf = false ∧ t.cmdRx = 0#32 ∧ t.badRx = 0#32 ∧ t.lastCmd = 0#32 ∧ t.lastSent = 0#32 ∧
      t.dirty = false ∧ t.act = false ∧ t.halted = false ∧ t.mem.wf s.cfg ∧ t.cfg = s.cfg ∧ t.out = s.out ∧ t.inputs = rest

/-- While `halted` is 1 every event but `ExtReset` leaves the state as it is and outputs nothing (10_state.md R35). That the event is
taken, admitted or not, is log entry 7. -/
def Obligations.HaltedIgnoresEvent : Prop :=
  ∀ (s : State) (e : Event) (rest : List Event), s.cfg.wf = true → s.halted = true → s.inputs = e :: rest → e ≠ .extReset →
    step s = .next { s with inputs := rest }

/-- An event that is not admitted has no step (00_scope.md R7), and a configuration outside the table of R8 is refused
(92_eei_decisions.md D29): the model's stops, log entries 8 and 9. -/
def Obligations.EventsOutsideTheInterfaceStop : Prop :=
  ∀ (s : State) (b : Byte) (p : List Byte) (now : Word32) (rest : List Event),
    (s.cfg.wf = false → step s = .refused .configOutsideTable) ∧
    (s.cfg.wf = true → s.halted = false → s.cfg.proto = .binary → s.inputs = .rxByte b now :: rest → step s = .fault .portAbsent) ∧
    (s.cfg.wf = true → s.halted = false → s.cfg.proto ≠ .binary → s.inputs = .packet p now :: rest → step s = .fault .portAbsent) ∧
    (s.cfg.wf = true → s.halted = false → s.cfg.proto = .binary → s.cfg.pktMax < p.length → s.inputs = .packet p now :: rest →
      step s = .fault .packetTooLong)

/-! ## Invariants and whole-machine rules -/

/-- The state after reset meets the invariant, in every admitted configuration and for every draw; the registers are at the values of
10_state.md R40. The configuration of `State.reset` is the model's choice (log entry 1). -/
def Obligations.ResetEstablishesInvariant : Prop :=
  (∀ (c : Config) (d : Nat), c.wf = true → (State.resetWith c d).Inv) ∧ State.reset.Inv ∧
    State.reset.cur = 0 ∧ State.reset.ovf = false ∧ State.reset.cmdRx = 0#32 ∧ State.reset.badRx = 0#32 ∧
    State.reset.lastCmd = 0#32 ∧ State.reset.lastSent = 0#32 ∧ State.reset.dirty = false ∧ State.reset.act = false ∧
    State.reset.halted = false

/-- Every step keeps the invariant: admitted configuration, memories of fixed length, `0 <= cur <= CAP`, `ovf = 1` exactly when
`cur = CAP`, absent fields at reset (10_state.md R20, R22, R24; 40_frame_reader.md R111). -/
def Obligations.StepKeepsInvariant : Prop :=
  ∀ s t : State, s.Inv → step s = .next t → t.Inv

/-- `cfg` "never changes while the core runs" (00_scope.md R8), the output only grows (20_memory.md R69), and a step consumes exactly one
event (10_state.md R27). -/
def Obligations.StepKeepsConfigAndAppendsOutput : Prop :=
  ∀ s t : State, step s = .next t → t.cfg = s.cfg ∧ s.out <+: t.out ∧ t.inputs = s.inputs.tail

/-- The reference memories are what the issued operations, applied in order, make of them (20_memory.md R50, R69): every step but `ExtReset`. -/
def Obligations.SinksReplayIssuedOperations : Prop :=
  ∀ s t : State, step s = .next t → s.inputs.head? ≠ some .extReset →
    t.mem.pixp = (replay s.cfg (issued s t) s.mem).pixp ∧ t.mem.pixv = (replay s.cfg (issued s t) s.mem).pixv ∧
    t.mem.bitp = (replay s.cfg (issued s t) s.mem).bitp ∧ t.mem.bitv = (replay s.cfg (issued s t) s.mem).bitv

/-- What shows on the outputs changes only by a flush or a commit (20_memory.md R51, R70): a step that issues no `PixFlush` leaves
`PIXV`, one that issues no `BitCommit` leaves `BITV`, but for `ExtReset`. -/
def Obligations.VisibleChangesOnlyByFlushOrCommit : Prop :=
  ∀ s t : State, step s = .next t → s.inputs.head? ≠ some .extReset →
    (OutOp.pixFlush ∉ issued s t → t.mem.pixv = s.mem.pixv) ∧ (OutOp.bitCommit ∉ issued s t → t.mem.bitv = s.mem.bitv)

/-- "a Command mutates at most one sink category" (10_state.md R41, 43_dispatcher.md R183): no step issues both a pixel mutation and a bit
mutation. -/
def Obligations.OneSinkCategoryPerStep : Prop :=
  ∀ (s t : State) (a b : OutOp), step s = .next t → a ∈ issued s t → b ∈ issued s t →
    ¬(a.isPixelMutation = true ∧ b.isBitMutation = true)

/-- The activity indicator (43_dispatcher.md R171): a packet processed while not halted inverts `act` and issues `ActToggle()` exactly once,
first; no other event does. -/
def Obligations.ActivityToggleOncePerPacket : Prop :=
  ∀ s t : State, step s = .next t → s.halted = false →
    (∀ p now, s.inputs.head? = some (.packet p now) → t.act = !s.act ∧ ∃ ops, issued s t = .actToggle :: ops ∧ OutOp.actToggle ∉ ops) ∧
    ((∀ p now, s.inputs.head? ≠ some (.packet p now)) → s.inputs.head? ≠ some .extReset →
      t.act = s.act ∧ OutOp.actToggle ∉ issued s t)

/-- The counters (40_frame_reader.md R117, R118; 10_state.md R41): a finalizing step adds exactly 1 to exactly one of them, any other step
changes neither; Reset is the one exception. -/
def Obligations.ExactlyOneCounterPerFrame : Prop :=
  ∀ (s t : State) (e : Event) (rest : List Event), step s = .next t → s.inputs = e :: rest → e ≠ .extReset →
    s.halted = false → t.halted = false →
    (e.finalizes = true →
      t.cmdRx.toNat = s.cmdRx.toNat + 1 ∧ t.badRx = s.badRx ∨ t.badRx.toNat = s.badRx.toNat + 1 ∧ t.cmdRx = s.cmdRx) ∧
    (e.finalizes = false → t.cmdRx = s.cmdRx ∧ t.badRx = s.badRx)

/-- The flag `halted` (10_state.md R35): the Reset packet sets it and nothing else does; `ExtReset` clears it and nothing else does;
while it is 1 every other event leaves the state unchanged (but for the event taken) and produces no output. -/
def Obligations.OnlyResetHaltsOnlyExtResetRevives : Prop :=
  ∀ s t : State, step s = .next t →
    (s.halted = false → (t.halted = true ↔ ∃ now rest, s.inputs = .packet [0x52#8] now :: rest)) ∧
    (s.halted = true → (t.halted = false ↔ ∃ rest, s.inputs = .extReset :: rest)) ∧
    (s.halted = true → s.inputs.head? ≠ some .extReset → t = { s with inputs := s.inputs.tail })

/-! ## Runs -/

/-- The Frame Reader's law (40_frame_reader.md R120): feeding any bytes to a text instance, one at a time, finalizes exactly one frame per
terminator: the run completes and `cmdRx + badRx` grows by the number of 0x0A bytes, the counters not reaching their top. -/
def Obligations.EveryTerminatorIsOneFrame : Prop :=
  ∀ (s : State) (bytes : List (Byte × Word32)),
    s.Inv → s.cfg.proto ≠ .binary → s.inputs = byteEvents bytes →
    s.cmdRx.toNat + terminators bytes < 2 ^ 32 → s.badRx.toNat + terminators bytes < 2 ^ 32 →
    ∃ t, Sys2Proof.core.run bytes.length s = .next t ∧ t.inputs = [] ∧
      t.cmdRx.toNat + t.badRx.toNat = s.cmdRx.toNat + s.badRx.toNat + terminators bytes

/-- Framing (40_frame_reader.md R112 to R115): a line of data bytes and its terminator, from an empty reader. Fewer than `CAP` bytes are
decoded whole and the command is executed; `CAP` or more are an overflow, counted bad. -/
def Obligations.FedLineIsOneFrame : Prop :=
  ∀ (s : State) (line : List (Byte × Word32)) (now : Word32) (rest : List Event),
    s.Inv → s.cfg.proto ≠ .binary → s.cur = 0 → (∀ x ∈ line, x.1 ≠ 0x0A#8) → s.badRx ≠ 0xFFFFFFFF#32 →
    s.inputs = byteEvents line ++ .rxByte 0x0A#8 now :: rest →
    let f := line.map (fun x => x.1)
    let s' : State := { s with
      mem := { s.mem with fb := f.take s.cfg.cap ++ s.mem.fb.drop f.length }, cur := 0, ovf := false, now := now, inputs := rest }
    (∀ i, f.length < s.cfg.cap → decode s.cfg f = .ok i → Sys2Proof.core.run (line.length + 1) s = exec i s') ∧
    (∀ e, f.length < s.cfg.cap → decode s.cfg f = .error e → Sys2Proof.core.run (line.length + 1) s = .next (afterBad s')) ∧
    (s.cfg.cap ≤ f.length → Sys2Proof.core.run (line.length + 1) s = .next (afterBad s'))

/-- End to end: an instruction of the instance whose frame fits is executed when its frame arrives: byte by byte with its terminator in a
text protocol, as one packet in Binary (30_encoding.md R80, R91; 40_frame_reader.md R114, R119). -/
def Obligations.ArrivingFrameExecutesItsInstr : Prop :=
  ∀ (s : State) (i : Instr) (frame : List (Byte × Word32)) (now : Word32) (rest : List Event),
    s.Inv → s.halted = false → i.wf s.cfg = true → frame.map (fun x => x.1) = encode i →
    (s.cfg.proto ≠ .binary → s.cur = 0 → frame.length < s.cfg.cap → s.inputs = byteEvents frame ++ .rxByte 0x0A#8 now :: rest →
      Sys2Proof.core.run (frame.length + 1) s = exec i { s with
        mem := { s.mem with fb := encode i ++ s.mem.fb.drop frame.length }, cur := 0, ovf := false, now := now, inputs := rest }) ∧
    (s.cfg.proto = .binary → frame.length ≤ s.cfg.pktMax → s.inputs = .packet (encode i) now :: rest →
      Sys2Proof.core.run 1 s = exec i { s with now := now, inputs := rest })

/-- After a Reset the core ignores every event until `ExtReset` and is then at its reset values, `cfg` kept
(70_reset_and_hazards.md R240, R242; 10_state.md R35, R40). That an ignored event is taken, admitted or not, is log entry 7; that
`ExtReset` keeps the model's own fields `out`, `inputs` and `now` is log entry 15. -/
def Obligations.HaltedUntilExtReset : Prop :=
  ∀ (s : State) (es rest : List Event), s.cfg.wf = true → s.halted = true → (∀ e ∈ es, e ≠ .extReset) →
    (s.inputs = es ++ rest → Sys2Proof.core.run es.length s = .next { s with inputs := rest }) ∧
    (s.inputs = es ++ .extReset :: rest →
      ∃ t, Sys2Proof.core.run (es.length + 1) s = .next t ∧ t.Inv ∧ t.cur = 0 ∧ t.ovf = false ∧ t.cmdRx = 0#32 ∧ t.badRx = 0#32 ∧
        t.lastCmd = 0#32 ∧ t.lastSent = 0#32 ∧ t.dirty = false ∧ t.act = false ∧ t.halted = false ∧ t.mem.wf s.cfg ∧
        t.cfg = s.cfg ∧ t.out = s.out ∧ t.inputs = rest ∧ t.now = s.now)

/-- Idempotence of ClearLeds (43_dispatcher.md R174): issued twice in a row, all pixels are (0,0,0) after either flush. -/
def Obligations.ClearLedsTwiceIsOnce : Prop :=
  ∀ (s : State) (i j : Instr), (i = .textAC ∨ i = .textBX ∨ i = .binaryC) → (j = .textAC ∨ j = .textBX ∨ j = .binaryC) →
    s.cmdRx.toNat + 2 < 2 ^ 32 → s.mem.pixp.length = s.cfg.n →
    ∃ t u, exec i s = .next t ∧ exec j t = .next u ∧ u.mem = t.mem ∧
      ∀ k, k < s.cfg.n → t.mem.pixp[k]? = some ⟨0#8, 0#8, 0#8⟩ ∧ t.mem.pixv[k]? = some ⟨0#8, 0#8, 0#8⟩

/-! ## The status frame -/

/-- `dec(v)` is the shortest decimal spelling (00_scope.md R12): digits only, spelling `v`, no leading zero but for `"0"` itself. -/
def Obligations.DecimalSpellingIsShortestAndExact : Prop :=
  ∀ v : Nat, allDigits (dec v) ∧ digitsValue (dec v) = v ∧ dec v ≠ [] ∧ (v ≠ 0 → (dec v).head? ≠ some 0x30#8) ∧ (v = 0 → dec v = [0x30#8])

/-- Round trip of the report (44_state_reporter.md R200): the host recovers the exact counters from either form. -/
def Obligations.StatusFrameRoundTrip : Prop :=
  ∀ s : State,
    (s.cfg.proto = .binary → hostReadPacket (statusFrame s) = some (s.cmdRx.toNat, s.badRx.toNat)) ∧
    (s.cfg.proto ≠ .binary → hostReadLine (statusFrame s) = some (s.cmdRx.toNat, s.badRx.toNat))

/-- Lengths of the status frame (44_state_reporter.md R191, R192): 9 bytes in Binary, 10 to 41 in text. -/
def Obligations.StatusFrameLength : Prop :=
  ∀ s : State,
    (s.cfg.proto = .binary → (statusFrame s).length = 9) ∧
    (s.cfg.proto ≠ .binary → 10 ≤ (statusFrame s).length ∧ (statusFrame s).length ≤ 41)

/-! ## Both fields of a set-pixel line -/

/-- A set-pixel line of two scans, each a sign or none and digits or none (41_text_commands.md R131 to R133): the fields are read
independently. `f,0` says what the first field gives and `0,g` what the second gives; the line `f,g` has both values, or the cause of the
first field that fails (60_exceptions.md R215). -/
def Obligations.TextFieldsAreIndependent : Prop :=
  ∀ (c : Config) (op : Byte) (mk : Nat → Color → Instr) (sign1 sign2 d1 d2 : List Byte),
    (c.proto = .textA ∧ op = 0x4F#8 ∧ mk = Instr.textAO ∨ c.proto = .textB ∧ op = 0x4C#8 ∧ mk = Instr.textBL) → c.hasPixels = true →
    isSign sign1 → isSign sign2 → allDigits d1 → allDigits d2 →
    (∀ e, decode c (op :: (sign1 ++ d1 ++ [0x2C#8, 0x30#8])) = .error e →
      decode c (op :: (sign1 ++ d1 ++ 0x2C#8 :: (sign2 ++ d2))) = .error e) ∧
    (∀ i e, decode c (op :: (sign1 ++ d1 ++ [0x2C#8, 0x30#8])) = .ok i → decode c (op :: 0x30#8 :: 0x2C#8 :: (sign2 ++ d2)) = .error e →
      decode c (op :: (sign1 ++ d1 ++ 0x2C#8 :: (sign2 ++ d2))) = .error e) ∧
    (∀ led led' col col', decode c (op :: (sign1 ++ d1 ++ [0x2C#8, 0x30#8])) = .ok (mk led col') →
      decode c (op :: 0x30#8 :: 0x2C#8 :: (sign2 ++ d2)) = .ok (mk led' col) →
      decode c (op :: (sign1 ++ d1 ++ 0x2C#8 :: (sign2 ++ d2))) = .ok (mk led col))
end

