-- ==== Sys2Proof/Laws/Decode.lean ====
section
/-! SUPPORT. The scanner and the fields on lists of digits, and the colour packing. -/

namespace Sys2Proof

theorem isDigit_iff (b : Byte) : isDigit b = true ↔ 0x30 ≤ b.toNat ∧ b.toNat ≤ 0x39 := by simp [isDigit]

@[simp] theorem charAt_nil : charAt [] = chLF := rfl
@[simp] theorem charAt_cons (b : Byte) (bs : List Byte) : charAt (b :: bs) = b := rfl

/-- A digit is no minus sign, no comma and no terminator. -/
theorem digit_ne {b : Byte} (h : 0x30 ≤ b.toNat ∧ b.toNat ≤ 0x39) : b ≠ chMinus ∧ b ≠ chComma ∧ b ≠ chLF := by
  refine ⟨?_, ?_, ?_⟩ <;> rintro rfl <;> revert h <;> decide

/-- The scanner consumes digits and stops at the first byte that is none; the magnitude is exact (41_text_commands.md R131). -/
theorem scanDigits_append (neg : Bool) (ds rest : List Byte) (mag nd : Nat) (hd : allDigits ds)
    (hr : isDigit (charAt rest) = false) :
    scanDigits neg (ds ++ rest) mag nd =
      ⟨neg, ds.foldl (fun v d => v * 10 + (d.toNat - 0x30)) mag, nd + ds.length, rest⟩ := by
  induction ds generalizing mag nd with
  | nil =>
    cases rest with
    | nil => rfl
    | cons b bs =>
      simp only [charAt_cons] at hr
      simp [scanDigits, hr]
  | cons d ds ih =>
    have h1 : isDigit d = true := (isDigit_iff d).2 (hd d (by simp))
    have h2 : allDigits ds := fun x hx => hd x (by simp [hx])
    simp only [List.cons_append, scanDigits, h1, if_true, ih _ _ h2, List.foldl_cons, List.length_cons]
    congr 1
    omega

/-- A scan of digits alone. -/
theorem scanInt_digits {ds rest : List Byte} (hd : allDigits ds) (hr : isDigit (charAt rest) = false)
    (hm : charAt (ds ++ rest) ≠ chMinus) : scanInt (ds ++ rest) = ⟨false, digitsValue ds, ds.length, rest⟩ := by
  simp [scanInt, hm, scanDigits_append false ds rest 0 0 hd hr, digitsValue]

/-- A scan of digits after a minus sign. -/
theorem scanInt_minus {ds rest : List Byte} (hd : allDigits ds) (hr : isDigit (charAt rest) = false) :
    scanInt (chMinus :: (ds ++ rest)) = ⟨true, digitsValue ds, ds.length, rest⟩ := by
  simp [scanInt, scanDigits_append true ds rest 0 0 hd hr, digitsValue]

/-- Digits that are there do not begin with a minus sign. -/
theorem charAt_digits {ds : List Byte} (hd : allDigits ds) (hne : ds ≠ []) (rest : List Byte) :
    charAt (ds ++ rest) ≠ chMinus := by
  cases ds with
  | nil => exact absurd rfl hne
  | cons d ds => exact (digit_ne (hd d (by simp))).1

/-- A scan of a sign or none and digits or none, stopped by a byte it does not take (41_text_commands.md R131). -/
theorem scanInt_sign {sign ds rest : List Byte} (hs : isSign sign) (hd : allDigits ds) (hr : isDigit (charAt rest) = false)
    (hm : sign ++ ds = [] → charAt rest ≠ chMinus) :
    scanInt (sign ++ ds ++ rest) = ⟨decide (sign = [chMinus]), digitsValue ds, ds.length, rest⟩ := by
  rcases hs with rfl | rfl
  · refine scanInt_digits hd hr ?_
    cases ds with
    | nil => exact hm rfl
    | cons d ds => exact charAt_digits hd (by simp) rest
  · exact scanInt_minus hd hr

/-- A set-pixel operand part of two scans and a rest (41_text_commands.md R133): the separator checks, then the two fields. -/
theorem decodeSetPixel_scans (c : Config) {sign1 sign2 d1 d2 rest : List Byte} (h1 : isSign sign1) (h2 : isSign sign2)
    (hd1 : allDigits d1) (hd2 : allDigits d2) (hr : isDigit (charAt rest) = false)
    (hm : sign2 ++ d2 = [] → charAt rest ≠ chMinus) :
    decodeSetPixel c (sign1 ++ d1 ++ chComma :: (sign2 ++ d2 ++ rest)) =
      if charAt rest ≠ chLF then .error .missingSeparator
      else
        match field c ⟨decide (sign1 = [chMinus]), digitsValue d1, d1.length, chComma :: (sign2 ++ d2 ++ rest)⟩ 255 with
        | .error e => .error e
        | .ok led =>
          match field c ⟨decide (sign2 = [chMinus]), digitsValue d2, d2.length, rest⟩ 16777215 with
          | .error e => .error e
          | .ok col => .ok (led, colorOfNat col) := by
  have first : scanInt (sign1 ++ d1 ++ chComma :: (sign2 ++ d2 ++ rest)) =
      ⟨decide (sign1 = [chMinus]), digitsValue d1, d1.length, chComma :: (sign2 ++ d2 ++ rest)⟩ :=
    scanInt_sign h1 hd1 rfl fun _ => by rw [charAt_cons]; decide
  unfold decodeSetPixel
  simp only [first, charAt_cons, List.tail_cons, scanInt_sign h2 hd2 hr hm, ne_eq, not_true, if_false]
  -- the two sides may name different compiled matches
  all_goals rfl

/-- The set-pixel opcode of a text protocol goes to `setPixel` (41_text_commands.md R134, R135). -/
theorem decode_setPixel (c : Config) (op : Byte) (mk : Nat → Color → Instr) (operands : List Byte)
    (h : c.proto = .textA ∧ op = 0x4F#8 ∧ mk = Instr.textAO ∨ c.proto = .textB ∧ op = 0x4C#8 ∧ mk = Instr.textBL)
    (hp : c.hasPixels = true) : decode c (op :: operands) = setPixel c operands mk := by
  rcases h with ⟨h, rfl, rfl⟩ | ⟨h, rfl, rfl⟩ <;>
    simp [decode, h, decodeTextA, decodeTextB, hp, chG, chL, chC, chO, chS, chX]

theorem digitsValue_append (ds : List Byte) (d : Byte) :
    digitsValue (ds ++ [d]) = digitsValue ds * 10 + (d.toNat - 0x30) := by
  simp [digitsValue]

theorem digitByte_toNat {d : Nat} (h : d < 10) : (digitByte d).toNat = 0x30 + d := by
  simp [digitByte]
  omega

/-- A colour's 24-bit value is below 2^24, and splits back into its components (20_memory.md R62). -/
theorem natOfColor_lt (col : Color) : natOfColor col ≤ 16777215 := by
  have h1 := col.red.isLt
  have h2 := col.green.isLt
  have h3 := col.blue.isLt
  unfold natOfColor
  omega

theorem colorOfNat_natOfColor (col : Color) : colorOfNat (natOfColor col) = col := by
  have h1 := col.red.isLt
  have h2 := col.green.isLt
  have h3 := col.blue.isLt
  cases col with
  | mk r g b =>
    simp only [colorOfNat, natOfColor, Color.mk.injEq] at *
    refine ⟨BitVec.eq_of_toNat_eq ?_, BitVec.eq_of_toNat_eq ?_, BitVec.eq_of_toNat_eq ?_⟩ <;>
      simp only [BitVec.toNat_ofNat] <;> omega

/-- The triples of the bytes of colours are the colours (42_binary_commands.md R156). -/
theorem triples_flatMap (cols : List Color) : triples (cols.flatMap colorBytes) = cols := by
  induction cols with
  | nil => rfl
  | cons col cols ih => simp [List.flatMap_cons, colorBytes, triples, ih]

/-- A payload of whole triples is the bytes of its triples, and has one for every three bytes. -/
theorem flatMap_triples (bytes : List Byte) (h : bytes.length % 3 = 0) :
    (triples bytes).flatMap colorBytes = bytes ∧ (triples bytes).length = bytes.length / 3 := by
  induction bytes using triples.induct with
  | case1 r g b more ih =>
    obtain ⟨h1, h2⟩ := ih (by simp at h; omega)
    refine ⟨by simp [triples, List.flatMap_cons, colorBytes, h1], ?_⟩
    simp [triples, h2]
    omega
  | case2 => simp at h
  | case3 => simp at h
  | case4 => simp [triples]

/-- What an accepted field is (41_text_commands.md R132): within its range. -/
theorem field_le {c : Config} {sc : Scan} {max v : Nat} (h : field c sc max = .ok v) : v ≤ max := by
  unfold field at h
  split at h
  · cases h
  · split at h
    · cases h
    · dsimp only at h
      generalize (if sc.neg = true ∧ 0 < sc.mag then 0 else sc.mag) = w at h
      by_cases hw : max < w
      · simp [hw] at h
      · simp only [if_neg hw, Except.ok.injEq] at h
        omega

end Sys2Proof
end

