-- ==== Sys2Proof/Laws/State.lean ====
section
/-! SUPPORT. One lemma per field per field update of State: each update changes the fields it names and no other. -/

namespace Sys2Proof.Machine.State

variable (s : State)

@[simp] theorem setMem_cfg (v : Memory) : (s.setMem v).cfg = s.cfg := rfl
@[simp] theorem setMem_mem (v : Memory) : (s.setMem v).mem = v := rfl
@[simp] theorem setMem_cur (v : Memory) : (s.setMem v).cur = s.cur := rfl
@[simp] theorem setMem_ovf (v : Memory) : (s.setMem v).ovf = s.ovf := rfl
@[simp] theorem setMem_cmdRx (v : Memory) : (s.setMem v).cmdRx = s.cmdRx := rfl
@[simp] theorem setMem_badRx (v : Memory) : (s.setMem v).badRx = s.badRx := rfl
@[simp] theorem setMem_lastCmd (v : Memory) : (s.setMem v).lastCmd = s.lastCmd := rfl
@[simp] theorem setMem_lastSent (v : Memory) : (s.setMem v).lastSent = s.lastSent := rfl
@[simp] theorem setMem_dirty (v : Memory) : (s.setMem v).dirty = s.dirty := rfl
@[simp] theorem setMem_act (v : Memory) : (s.setMem v).act = s.act := rfl
@[simp] theorem setMem_halted (v : Memory) : (s.setMem v).halted = s.halted := rfl
@[simp] theorem setMem_out (v : Memory) : (s.setMem v).out = s.out := rfl
@[simp] theorem setMem_inputs (v : Memory) : (s.setMem v).inputs = s.inputs := rfl
@[simp] theorem setMem_now (v : Memory) : (s.setMem v).now = s.now := rfl
@[simp] theorem setMem_draws (v : Memory) : (s.setMem v).draws = s.draws := rfl

@[simp] theorem setReader_cfg (n : Nat) (b : Bool) : (s.setReader n b).cfg = s.cfg := rfl
@[simp] theorem setReader_mem (n : Nat) (b : Bool) : (s.setReader n b).mem = s.mem := rfl
@[simp] theorem setReader_cur (n : Nat) (b : Bool) : (s.setReader n b).cur = n := rfl
@[simp] theorem setReader_ovf (n : Nat) (b : Bool) : (s.setReader n b).ovf = b := rfl
@[simp] theorem setReader_cmdRx (n : Nat) (b : Bool) : (s.setReader n b).cmdRx = s.cmdRx := rfl
@[simp] theorem setReader_badRx (n : Nat) (b : Bool) : (s.setReader n b).badRx = s.badRx := rfl
@[simp] theorem setReader_lastCmd (n : Nat) (b : Bool) : (s.setReader n b).lastCmd = s.lastCmd := rfl
@[simp] theorem setReader_lastSent (n : Nat) (b : Bool) : (s.setReader n b).lastSent = s.lastSent := rfl
@[simp] theorem setReader_dirty (n : Nat) (b : Bool) : (s.setReader n b).dirty = s.dirty := rfl
@[simp] theorem setReader_act (n : Nat) (b : Bool) : (s.setReader n b).act = s.act := rfl
@[simp] theorem setReader_halted (n : Nat) (b : Bool) : (s.setReader n b).halted = s.halted := rfl
@[simp] theorem setReader_out (n : Nat) (b : Bool) : (s.setReader n b).out = s.out := rfl
@[simp] theorem setReader_inputs (n : Nat) (b : Bool) : (s.setReader n b).inputs = s.inputs := rfl
@[simp] theorem setReader_now (n : Nat) (b : Bool) : (s.setReader n b).now = s.now := rfl
@[simp] theorem setReader_draws (n : Nat) (b : Bool) : (s.setReader n b).draws = s.draws := rfl

@[simp] theorem setCmdRx_cfg (v : Word32) : (s.setCmdRx v).cfg = s.cfg := rfl
@[simp] theorem setCmdRx_mem (v : Word32) : (s.setCmdRx v).mem = s.mem := rfl
@[simp] theorem setCmdRx_cur (v : Word32) : (s.setCmdRx v).cur = s.cur := rfl
@[simp] theorem setCmdRx_ovf (v : Word32) : (s.setCmdRx v).ovf = s.ovf := rfl
@[simp] theorem setCmdRx_cmdRx (v : Word32) : (s.setCmdRx v).cmdRx = v := rfl
@[simp] theorem setCmdRx_badRx (v : Word32) : (s.setCmdRx v).badRx = s.badRx := rfl
@[simp] theorem setCmdRx_lastCmd (v : Word32) : (s.setCmdRx v).lastCmd = s.lastCmd := rfl
@[simp] theorem setCmdRx_lastSent (v : Word32) : (s.setCmdRx v).lastSent = s.lastSent := rfl
@[simp] theorem setCmdRx_dirty (v : Word32) : (s.setCmdRx v).dirty = s.dirty := rfl
@[simp] theorem setCmdRx_act (v : Word32) : (s.setCmdRx v).act = s.act := rfl
@[simp] theorem setCmdRx_halted (v : Word32) : (s.setCmdRx v).halted = s.halted := rfl
@[simp] theorem setCmdRx_out (v : Word32) : (s.setCmdRx v).out = s.out := rfl
@[simp] theorem setCmdRx_inputs (v : Word32) : (s.setCmdRx v).inputs = s.inputs := rfl
@[simp] theorem setCmdRx_now (v : Word32) : (s.setCmdRx v).now = s.now := rfl
@[simp] theorem setCmdRx_draws (v : Word32) : (s.setCmdRx v).draws = s.draws := rfl

@[simp] theorem setBadRx_cfg (v : Word32) : (s.setBadRx v).cfg = s.cfg := rfl
@[simp] theorem setBadRx_mem (v : Word32) : (s.setBadRx v).mem = s.mem := rfl
@[simp] theorem setBadRx_cur (v : Word32) : (s.setBadRx v).cur = s.cur := rfl
@[simp] theorem setBadRx_ovf (v : Word32) : (s.setBadRx v).ovf = s.ovf := rfl
@[simp] theorem setBadRx_cmdRx (v : Word32) : (s.setBadRx v).cmdRx = s.cmdRx := rfl
@[simp] theorem setBadRx_badRx (v : Word32) : (s.setBadRx v).badRx = v := rfl
@[simp] theorem setBadRx_lastCmd (v : Word32) : (s.setBadRx v).lastCmd = s.lastCmd := rfl
@[simp] theorem setBadRx_lastSent (v : Word32) : (s.setBadRx v).lastSent = s.lastSent := rfl
@[simp] theorem setBadRx_dirty (v : Word32) : (s.setBadRx v).dirty = s.dirty := rfl
@[simp] theorem setBadRx_act (v : Word32) : (s.setBadRx v).act = s.act := rfl
@[simp] theorem setBadRx_halted (v : Word32) : (s.setBadRx v).halted = s.halted := rfl
@[simp] theorem setBadRx_out (v : Word32) : (s.setBadRx v).out = s.out := rfl
@[simp] theorem setBadRx_inputs (v : Word32) : (s.setBadRx v).inputs = s.inputs := rfl
@[simp] theorem setBadRx_now (v : Word32) : (s.setBadRx v).now = s.now := rfl
@[simp] theorem setBadRx_draws (v : Word32) : (s.setBadRx v).draws = s.draws := rfl

@[simp] theorem setLastCmd_cfg (v : Word32) : (s.setLastCmd v).cfg = s.cfg := rfl
@[simp] theorem setLastCmd_mem (v : Word32) : (s.setLastCmd v).mem = s.mem := rfl
@[simp] theorem setLastCmd_cur (v : Word32) : (s.setLastCmd v).cur = s.cur := rfl
@[simp] theorem setLastCmd_ovf (v : Word32) : (s.setLastCmd v).ovf = s.ovf := rfl
@[simp] theorem setLastCmd_cmdRx (v : Word32) : (s.setLastCmd v).cmdRx = s.cmdRx := rfl
@[simp] theorem setLastCmd_badRx (v : Word32) : (s.setLastCmd v).badRx = s.badRx := rfl
@[simp] theorem setLastCmd_lastCmd (v : Word32) : (s.setLastCmd v).lastCmd = v := rfl
@[simp] theorem setLastCmd_lastSent (v : Word32) : (s.setLastCmd v).lastSent = s.lastSent := rfl
@[simp] theorem setLastCmd_dirty (v : Word32) : (s.setLastCmd v).dirty = s.dirty := rfl
@[simp] theorem setLastCmd_act (v : Word32) : (s.setLastCmd v).act = s.act := rfl
@[simp] theorem setLastCmd_halted (v : Word32) : (s.setLastCmd v).halted = s.halted := rfl
@[simp] theorem setLastCmd_out (v : Word32) : (s.setLastCmd v).out = s.out := rfl
@[simp] theorem setLastCmd_inputs (v : Word32) : (s.setLastCmd v).inputs = s.inputs := rfl
@[simp] theorem setLastCmd_now (v : Word32) : (s.setLastCmd v).now = s.now := rfl
@[simp] theorem setLastCmd_draws (v : Word32) : (s.setLastCmd v).draws = s.draws := rfl

@[simp] theorem setLastSent_cfg (v : Word32) : (s.setLastSent v).cfg = s.cfg := rfl
@[simp] theorem setLastSent_mem (v : Word32) : (s.setLastSent v).mem = s.mem := rfl
@[simp] theorem setLastSent_cur (v : Word32) : (s.setLastSent v).cur = s.cur := rfl
@[simp] theorem setLastSent_ovf (v : Word32) : (s.setLastSent v).ovf = s.ovf := rfl
@[simp] theorem setLastSent_cmdRx (v : Word32) : (s.setLastSent v).cmdRx = s.cmdRx := rfl
@[simp] theorem setLastSent_badRx (v : Word32) : (s.setLastSent v).badRx = s.badRx := rfl
@[simp] theorem setLastSent_lastCmd (v : Word32) : (s.setLastSent v).lastCmd = s.lastCmd := rfl
@[simp] theorem setLastSent_lastSent (v : Word32) : (s.setLastSent v).lastSent = v := rfl
@[simp] theorem setLastSent_dirty (v : Word32) : (s.setLastSent v).dirty = s.dirty := rfl
@[simp] theorem setLastSent_act (v : Word32) : (s.setLastSent v).act = s.act := rfl
@[simp] theorem setLastSent_halted (v : Word32) : (s.setLastSent v).halted = s.halted := rfl
@[simp] theorem setLastSent_out (v : Word32) : (s.setLastSent v).out = s.out := rfl
@[simp] theorem setLastSent_inputs (v : Word32) : (s.setLastSent v).inputs = s.inputs := rfl
@[simp] theorem setLastSent_now (v : Word32) : (s.setLastSent v).now = s.now := rfl
@[simp] theorem setLastSent_draws (v : Word32) : (s.setLastSent v).draws = s.draws := rfl

@[simp] theorem setDirty_cfg (v : Bool) : (s.setDirty v).cfg = s.cfg := rfl
@[simp] theorem setDirty_mem (v : Bool) : (s.setDirty v).mem = s.mem := rfl
@[simp] theorem setDirty_cur (v : Bool) : (s.setDirty v).cur = s.cur := rfl
@[simp] theorem setDirty_ovf (v : Bool) : (s.setDirty v).ovf = s.ovf := rfl
@[simp] theorem setDirty_cmdRx (v : Bool) : (s.setDirty v).cmdRx = s.cmdRx := rfl
@[simp] theorem setDirty_badRx (v : Bool) : (s.setDirty v).badRx = s.badRx := rfl
@[simp] theorem setDirty_lastCmd (v : Bool) : (s.setDirty v).lastCmd = s.lastCmd := rfl
@[simp] theorem setDirty_lastSent (v : Bool) : (s.setDirty v).lastSent = s.lastSent := rfl
@[simp] theorem setDirty_dirty (v : Bool) : (s.setDirty v).dirty = v := rfl
@[simp] theorem setDirty_act (v : Bool) : (s.setDirty v).act = s.act := rfl
@[simp] theorem setDirty_halted (v : Bool) : (s.setDirty v).halted = s.halted := rfl
@[simp] theorem setDirty_out (v : Bool) : (s.setDirty v).out = s.out := rfl
@[simp] theorem setDirty_inputs (v : Bool) : (s.setDirty v).inputs = s.inputs := rfl
@[simp] theorem setDirty_now (v : Bool) : (s.setDirty v).now = s.now := rfl
@[simp] theorem setDirty_draws (v : Bool) : (s.setDirty v).draws = s.draws := rfl

@[simp] theorem setAct_cfg (v : Bool) : (s.setAct v).cfg = s.cfg := rfl
@[simp] theorem setAct_mem (v : Bool) : (s.setAct v).mem = s.mem := rfl
@[simp] theorem setAct_cur (v : Bool) : (s.setAct v).cur = s.cur := rfl
@[simp] theorem setAct_ovf (v : Bool) : (s.setAct v).ovf = s.ovf := rfl
@[simp] theorem setAct_cmdRx (v : Bool) : (s.setAct v).cmdRx = s.cmdRx := rfl
@[simp] theorem setAct_badRx (v : Bool) : (s.setAct v).badRx = s.badRx := rfl
@[simp] theorem setAct_lastCmd (v : Bool) : (s.setAct v).lastCmd = s.lastCmd := rfl
@[simp] theorem setAct_lastSent (v : Bool) : (s.setAct v).lastSent = s.lastSent := rfl
@[simp] theorem setAct_dirty (v : Bool) : (s.setAct v).dirty = s.dirty := rfl
@[simp] theorem setAct_act (v : Bool) : (s.setAct v).act = v := rfl
@[simp] theorem setAct_halted (v : Bool) : (s.setAct v).halted = s.halted := rfl
@[simp] theorem setAct_out (v : Bool) : (s.setAct v).out = s.out := rfl
@[simp] theorem setAct_inputs (v : Bool) : (s.setAct v).inputs = s.inputs := rfl
@[simp] theorem setAct_now (v : Bool) : (s.setAct v).now = s.now := rfl
@[simp] theorem setAct_draws (v : Bool) : (s.setAct v).draws = s.draws := rfl

@[simp] theorem setHalted_cfg (v : Bool) : (s.setHalted v).cfg = s.cfg := rfl
@[simp] theorem setHalted_mem (v : Bool) : (s.setHalted v).mem = s.mem := rfl
@[simp] theorem setHalted_cur (v : Bool) : (s.setHalted v).cur = s.cur := rfl
@[simp] theorem setHalted_ovf (v : Bool) : (s.setHalted v).ovf = s.ovf := rfl
@[simp] theorem setHalted_cmdRx (v : Bool) : (s.setHalted v).cmdRx = s.cmdRx := rfl
@[simp] theorem setHalted_badRx (v : Bool) : (s.setHalted v).badRx = s.badRx := rfl
@[simp] theorem setHalted_lastCmd (v : Bool) : (s.setHalted v).lastCmd = s.lastCmd := rfl
@[simp] theorem setHalted_lastSent (v : Bool) : (s.setHalted v).lastSent = s.lastSent := rfl
@[simp] theorem setHalted_dirty (v : Bool) : (s.setHalted v).dirty = s.dirty := rfl
@[simp] theorem setHalted_act (v : Bool) : (s.setHalted v).act = s.act := rfl
@[simp] theorem setHalted_halted (v : Bool) : (s.setHalted v).halted = v := rfl
@[simp] theorem setHalted_out (v : Bool) : (s.setHalted v).out = s.out := rfl
@[simp] theorem setHalted_inputs (v : Bool) : (s.setHalted v).inputs = s.inputs := rfl
@[simp] theorem setHalted_now (v : Bool) : (s.setHalted v).now = s.now := rfl
@[simp] theorem setHalted_draws (v : Bool) : (s.setHalted v).draws = s.draws := rfl

@[simp] theorem pushOut_cfg (op : OutOp) : (s.pushOut op).cfg = s.cfg := rfl
@[simp] theorem pushOut_mem (op : OutOp) : (s.pushOut op).mem = s.mem := rfl
@[simp] theorem pushOut_cur (op : OutOp) : (s.pushOut op).cur = s.cur := rfl
@[simp] theorem pushOut_ovf (op : OutOp) : (s.pushOut op).ovf = s.ovf := rfl
@[simp] theorem pushOut_cmdRx (op : OutOp) : (s.pushOut op).cmdRx = s.cmdRx := rfl
@[simp] theorem pushOut_badRx (op : OutOp) : (s.pushOut op).badRx = s.badRx := rfl
@[simp] theorem pushOut_lastCmd (op : OutOp) : (s.pushOut op).lastCmd = s.lastCmd := rfl
@[simp] theorem pushOut_lastSent (op : OutOp) : (s.pushOut op).lastSent = s.lastSent := rfl
@[simp] theorem pushOut_dirty (op : OutOp) : (s.pushOut op).dirty = s.dirty := rfl
@[simp] theorem pushOut_act (op : OutOp) : (s.pushOut op).act = s.act := rfl
@[simp] theorem pushOut_halted (op : OutOp) : (s.pushOut op).halted = s.halted := rfl
@[simp] theorem pushOut_out (op : OutOp) : (s.pushOut op).out = s.out ++ [op] := rfl
@[simp] theorem pushOut_inputs (op : OutOp) : (s.pushOut op).inputs = s.inputs := rfl
@[simp] theorem pushOut_now (op : OutOp) : (s.pushOut op).now = s.now := rfl
@[simp] theorem pushOut_draws (op : OutOp) : (s.pushOut op).draws = s.draws := rfl

@[simp] theorem setInputs_cfg (es : List Event) : (s.setInputs es).cfg = s.cfg := rfl
@[simp] theorem setInputs_mem (es : List Event) : (s.setInputs es).mem = s.mem := rfl
@[simp] theorem setInputs_cur (es : List Event) : (s.setInputs es).cur = s.cur := rfl
@[simp] theorem setInputs_ovf (es : List Event) : (s.setInputs es).ovf = s.ovf := rfl
@[simp] theorem setInputs_cmdRx (es : List Event) : (s.setInputs es).cmdRx = s.cmdRx := rfl
@[simp] theorem setInputs_badRx (es : List Event) : (s.setInputs es).badRx = s.badRx := rfl
@[simp] theorem setInputs_lastCmd (es : List Event) : (s.setInputs es).lastCmd = s.lastCmd := rfl
@[simp] theorem setInputs_lastSent (es : List Event) : (s.setInputs es).lastSent = s.lastSent := rfl
@[simp] theorem setInputs_dirty (es : List Event) : (s.setInputs es).dirty = s.dirty := rfl
@[simp] theorem setInputs_act (es : List Event) : (s.setInputs es).act = s.act := rfl
@[simp] theorem setInputs_halted (es : List Event) : (s.setInputs es).halted = s.halted := rfl
@[simp] theorem setInputs_out (es : List Event) : (s.setInputs es).out = s.out := rfl
@[simp] theorem setInputs_inputs (es : List Event) : (s.setInputs es).inputs = es := rfl
@[simp] theorem setInputs_now (es : List Event) : (s.setInputs es).now = s.now := rfl
@[simp] theorem setInputs_draws (es : List Event) : (s.setInputs es).draws = s.draws := rfl

@[simp] theorem setNow_cfg (v : Word32) : (s.setNow v).cfg = s.cfg := rfl
@[simp] theorem setNow_mem (v : Word32) : (s.setNow v).mem = s.mem := rfl
@[simp] theorem setNow_cur (v : Word32) : (s.setNow v).cur = s.cur := rfl
@[simp] theorem setNow_ovf (v : Word32) : (s.setNow v).ovf = s.ovf := rfl
@[simp] theorem setNow_cmdRx (v : Word32) : (s.setNow v).cmdRx = s.cmdRx := rfl
@[simp] theorem setNow_badRx (v : Word32) : (s.setNow v).badRx = s.badRx := rfl
@[simp] theorem setNow_lastCmd (v : Word32) : (s.setNow v).lastCmd = s.lastCmd := rfl
@[simp] theorem setNow_lastSent (v : Word32) : (s.setNow v).lastSent = s.lastSent := rfl
@[simp] theorem setNow_dirty (v : Word32) : (s.setNow v).dirty = s.dirty := rfl
@[simp] theorem setNow_act (v : Word32) : (s.setNow v).act = s.act := rfl
@[simp] theorem setNow_halted (v : Word32) : (s.setNow v).halted = s.halted := rfl
@[simp] theorem setNow_out (v : Word32) : (s.setNow v).out = s.out := rfl
@[simp] theorem setNow_inputs (v : Word32) : (s.setNow v).inputs = s.inputs := rfl
@[simp] theorem setNow_now (v : Word32) : (s.setNow v).now = v := rfl
@[simp] theorem setNow_draws (v : Word32) : (s.setNow v).draws = s.draws := rfl

end Sys2Proof.Machine.State
end

