-- ==== Sys2Proof/Laws/Memory.lean ====
section
/-! SUPPORT. The reference memories: every operation keeps the canonical form, reads after writes, and what each operation leaves alone. -/

namespace Sys2Proof.Machine

theorem pixTarget_lt {c : Config} {i j : Nat} (hn : 1 ≤ c.n) (h : pixTarget c i = some j) : j < c.n := by
  unfold pixTarget at h
  split at h
  · simp_all
  · cases hp : c.pixOor <;> simp_all
    omega

theorem pixTarget_inRange {c : Config} {i : Nat} (h : i < c.n) : pixTarget c i = some i := by simp [pixTarget, h]

theorem bitTarget_lt {c : Config} {k j : Nat} (hm : 1 ≤ c.m) (h : bitTarget c k = some j) : j < c.m := by
  unfold bitTarget at h
  split at h
  · simp_all
  · cases hp : c.bitOor <;> simp_all
    omega

theorem bitTarget_inRange {c : Config} {k : Nat} (h : k < c.m) : bitTarget c k = some k := by simp [bitTarget, h]

namespace Memory

/-- The unspecified contents are complete: reset memory has the canonical form. -/
theorem unspecified_wf (c : Config) (d : Nat) : (unspecified c d).wf c := by simp [unspecified, wf]

@[simp] theorem putBit_length (bytes : List Byte) (k : Nat) (v : Bool) : (putBit bytes k v).length = bytes.length := by
  simp [putBit]

@[simp] theorem loadBytes_length (old new : List Byte) : (loadBytes old new).length = old.length := by
  induction old generalizing new with
  | nil => rfl
  | cons o os ih => cases new <;> simp [loadBytes, ih]

/-- A load of the array's own length replaces it (20_memory.md R56). -/
theorem loadBytes_eq {old new : List Byte} (h : new.length = old.length) : loadBytes old new = new := by
  induction old generalizing new with
  | nil => simp_all [loadBytes]
  | cons o os ih =>
    cases new with
    | nil => simp at h
    | cons n ns => simp [loadBytes, ih (by simpa using h)]

/-- A byte past a short payload stays; one below it is replaced. -/
theorem loadBytes_getElem? (old new : List Byte) (j : Nat) :
    (loadBytes old new)[j]? = if j < old.length ∧ j < new.length then new[j]? else old[j]? := by
  induction old generalizing new j with
  | nil => simp [loadBytes]
  | cons o os ih =>
    cases new with
    | nil => simp [loadBytes]
    | cons n ns => cases j <;> simp [loadBytes, ih]

/-! Each operation, field by field. -/

@[simp] theorem pixFlush_pixv (m : Memory) : m.pixFlush.pixv = m.pixp := rfl
@[simp] theorem pixFlush_pixp (m : Memory) : m.pixFlush.pixp = m.pixp := rfl
@[simp] theorem pixFlush_bitp (m : Memory) : m.pixFlush.bitp = m.bitp := rfl
@[simp] theorem pixFlush_bitv (m : Memory) : m.pixFlush.bitv = m.bitv := rfl
@[simp] theorem pixFlush_fb (m : Memory) : m.pixFlush.fb = m.fb := rfl
@[simp] theorem bitCommit_bitv (m : Memory) : m.bitCommit.bitv = m.bitp := rfl
@[simp] theorem bitCommit_bitp (m : Memory) : m.bitCommit.bitp = m.bitp := rfl
@[simp] theorem bitCommit_pixp (m : Memory) : m.bitCommit.pixp = m.pixp := rfl
@[simp] theorem bitCommit_pixv (m : Memory) : m.bitCommit.pixv = m.pixv := rfl
@[simp] theorem bitCommit_fb (m : Memory) : m.bitCommit.fb = m.fb := rfl
@[simp] theorem bitLoad_bitp (bs : List Byte) (m : Memory) : (m.bitLoad bs).bitp = loadBytes m.bitp bs := rfl
@[simp] theorem bitLoad_bitv (bs : List Byte) (m : Memory) : (m.bitLoad bs).bitv = m.bitv := rfl
@[simp] theorem bitLoad_pixp (bs : List Byte) (m : Memory) : (m.bitLoad bs).pixp = m.pixp := rfl
@[simp] theorem bitLoad_pixv (bs : List Byte) (m : Memory) : (m.bitLoad bs).pixv = m.pixv := rfl
@[simp] theorem bitLoad_fb (bs : List Byte) (m : Memory) : (m.bitLoad bs).fb = m.fb := rfl
@[simp] theorem fbStore_fb (i : Nat) (b : Byte) (m : Memory) : (m.fbStore i b).fb = m.fb.set i b := rfl
@[simp] theorem fbStore_pixp (i : Nat) (b : Byte) (m : Memory) : (m.fbStore i b).pixp = m.pixp := rfl
@[simp] theorem fbStore_pixv (i : Nat) (b : Byte) (m : Memory) : (m.fbStore i b).pixv = m.pixv := rfl
@[simp] theorem fbStore_bitp (i : Nat) (b : Byte) (m : Memory) : (m.fbStore i b).bitp = m.bitp := rfl
@[simp] theorem fbStore_bitv (i : Nat) (b : Byte) (m : Memory) : (m.fbStore i b).bitv = m.bitv := rfl

variable (c : Config) (m : Memory)

/-- `PixSet` writes one element of `PIXP` or nothing (20_memory.md R52). -/
theorem pixSet_cases (i : Nat) (col : Color) :
    (∃ j, pixTarget c i = some j ∧ m.pixSet c i col = { m with pixp := m.pixp.set j col }) ∨
    (pixTarget c i = none ∧ m.pixSet c i col = m) := by
  unfold pixSet
  cases h : pixTarget c i with
  | none => exact .inr ⟨rfl, rfl⟩
  | some j => exact .inl ⟨j, rfl, rfl⟩

@[simp] theorem pixSet_pixv (i : Nat) (col : Color) : (m.pixSet c i col).pixv = m.pixv := by unfold pixSet; split <;> rfl
@[simp] theorem pixSet_bitp (i : Nat) (col : Color) : (m.pixSet c i col).bitp = m.bitp := by unfold pixSet; split <;> rfl
@[simp] theorem pixSet_bitv (i : Nat) (col : Color) : (m.pixSet c i col).bitv = m.bitv := by unfold pixSet; split <;> rfl
@[simp] theorem pixSet_fb (i : Nat) (col : Color) : (m.pixSet c i col).fb = m.fb := by unfold pixSet; split <;> rfl
@[simp] theorem pixSet_pixp_length (i : Nat) (col : Color) : (m.pixSet c i col).pixp.length = m.pixp.length := by
  unfold pixSet; split <;> simp

/-- `BitSet` changes one bit of `BITP` or nothing (20_memory.md R55). -/
theorem bitSet_cases (k : Nat) (v : Bool) :
    (∃ j, bitTarget c k = some j ∧ m.bitSet c k v = { m with bitp := putBit m.bitp j v }) ∨
    (bitTarget c k = none ∧ m.bitSet c k v = m) := by
  unfold bitSet
  cases h : bitTarget c k with
  | none => exact .inr ⟨rfl, rfl⟩
  | some j => exact .inl ⟨j, rfl, rfl⟩

@[simp] theorem bitSet_pixp (k : Nat) (v : Bool) : (m.bitSet c k v).pixp = m.pixp := by unfold bitSet; split <;> rfl
@[simp] theorem bitSet_pixv (k : Nat) (v : Bool) : (m.bitSet c k v).pixv = m.pixv := by unfold bitSet; split <;> rfl
@[simp] theorem bitSet_bitv (k : Nat) (v : Bool) : (m.bitSet c k v).bitv = m.bitv := by unfold bitSet; split <;> rfl
@[simp] theorem bitSet_fb (k : Nat) (v : Bool) : (m.bitSet c k v).fb = m.fb := by unfold bitSet; split <;> rfl
@[simp] theorem bitSet_bitp_length (k : Nat) (v : Bool) : (m.bitSet c k v).bitp.length = m.bitp.length := by
  unfold bitSet; split <;> simp

/-- No output operation touches the frame buffer (10_state.md R21: `FB` is written only by `RxByte`). -/
@[simp] theorem apply_fb (op : OutOp) : (m.apply c op).fb = m.fb := by cases op <;> simp [apply]

/-- Every output operation keeps the canonical form. -/
theorem apply_wf {c : Config} {m : Memory} (op : OutOp) (h : m.wf c) : (m.apply c op).wf c := by
  obtain ⟨h1, h2, h3, h4, h5⟩ := h
  cases op <;> simp [apply, wf, *]

/-- Storing a frame byte keeps the canonical form. -/
theorem fbStore_wf {c : Config} {m : Memory} (i : Nat) (b : Byte) (h : m.wf c) : (m.fbStore i b).wf c := by
  obtain ⟨h1, h2, h3, h4, h5⟩ := h
  simp [wf, *]

/-- A pixel written is the pixel read. -/
theorem pixSet_read_same {c : Config} {m : Memory} {i : Nat} (col : Color) (hi : i < c.n) (hl : m.pixp.length = c.n) :
    (m.pixSet c i col).pixp[i]? = some col := by
  simp [pixSet, pixTarget_inRange hi, hl, hi]

/-- A pixel that is not the target reads as before. -/
theorem pixSet_read_other {i j : Nat} (col : Color) (h : pixTarget c i ≠ some j) :
    (m.pixSet c i col).pixp[j]? = m.pixp[j]? := by
  obtain ⟨t, ht, e⟩ | ⟨-, e⟩ := pixSet_cases c m i col
  · rw [e]
    exact List.getElem?_set_ne (fun hj => h (by rw [ht, hj]))
  · rw [e]

end Memory

end Sys2Proof.Machine
end

