-- ==== Sys2Proof/Laws/Ops.lean ====
section
/-! SUPPORT. One lemma per shared operation that says once everything it can do: emitting, counting, the exception, the reporter, the effect of
each command kind, and the completion of a frame. -/

namespace Sys2Proof.Machine

/-- The state after the operations `ops` were issued in order and applied to the reference memories. -/
def issueAll (ops : List OutOp) (s : State) : State :=
  { s with mem := replay s.cfg ops s.mem, out := s.out ++ ops }

section issueAll

variable (ops : List OutOp) (s : State)

@[simp] theorem issueAll_cfg : (issueAll ops s).cfg = s.cfg := rfl
@[simp] theorem issueAll_mem : (issueAll ops s).mem = replay s.cfg ops s.mem := rfl
@[simp] theorem issueAll_cur : (issueAll ops s).cur = s.cur := rfl
@[simp] theorem issueAll_ovf : (issueAll ops s).ovf = s.ovf := rfl
@[simp] theorem issueAll_cmdRx : (issueAll ops s).cmdRx = s.cmdRx := rfl
@[simp] theorem issueAll_badRx : (issueAll ops s).badRx = s.badRx := rfl
@[simp] theorem issueAll_lastCmd : (issueAll ops s).lastCmd = s.lastCmd := rfl
@[simp] theorem issueAll_lastSent : (issueAll ops s).lastSent = s.lastSent := rfl
@[simp] theorem issueAll_dirty : (issueAll ops s).dirty = s.dirty := rfl
@[simp] theorem issueAll_act : (issueAll ops s).act = s.act := rfl
@[simp] theorem issueAll_halted : (issueAll ops s).halted = s.halted := rfl
@[simp] theorem issueAll_out : (issueAll ops s).out = s.out ++ ops := rfl
@[simp] theorem issueAll_inputs : (issueAll ops s).inputs = s.inputs := rfl
@[simp] theorem issueAll_now : (issueAll ops s).now = s.now := rfl
@[simp] theorem issueAll_draws : (issueAll ops s).draws = s.draws := rfl

end issueAll

@[simp] theorem replay_nil (c : Config) (m : Memory) : replay c [] m = m := rfl

theorem replay_append (c : Config) (a b : List OutOp) (m : Memory) : replay c (a ++ b) m = replay c b (replay c a m) := by
  simp [replay]

/-- Issuing operations keeps the canonical form and the frame buffer. -/
theorem replay_wf {c : Config} (ops : List OutOp) {m : Memory} (h : m.wf c) : (replay c ops m).wf c := by
  induction ops generalizing m with
  | nil => exact h
  | cons op ops ih => exact ih (Memory.apply_wf op h)

@[simp] theorem replay_fb (c : Config) (ops : List OutOp) (m : Memory) : (replay c ops m).fb = m.fb := by
  induction ops generalizing m with
  | nil => rfl
  | cons op ops ih => simpa [replay] using ih (m.apply c op)

@[simp] theorem issueAll_nil (s : State) : issueAll [] s = s := by simp [issueAll]

theorem issueAll_append (a b : List OutOp) (s : State) : issueAll b (issueAll a s) = issueAll (a ++ b) s := by
  simp [issueAll, replay_append]

/-- `emit` issues one operation. -/
theorem emit_eq (op : OutOp) (s : State) : emit op s = issueAll [op] s := rfl

/-! ## Counters and the exception -/

/-- `c +1` (10_state.md R30). -/
theorem counterNext_of_ne {v : Word32} (h : v ≠ 0xFFFFFFFF#32) : counterNext v = some (v + 1#32) := by simp [counterNext, h]

theorem counterNext_top : counterNext 0xFFFFFFFF#32 = none := rfl

/-- Below its top a counter does not wrap. -/
theorem toNat_counter_succ {v : Word32} (h : v ≠ 0xFFFFFFFF#32) : (v + 1#32).toNat = v.toNat + 1 := by
  have hv : v.toNat ≠ 4294967295 := fun e => h (BitVec.eq_of_toNat_eq (by simpa using e))
  have := v.isLt
  simp only [BitVec.toNat_add, BitVec.toNat_ofNat]
  omega

theorem toNat_ne_top {v : Word32} : v ≠ 0xFFFFFFFF#32 ↔ v.toNat + 1 < 2 ^ 32 := by
  have := v.isLt
  constructor
  · intro h
    have hv : v.toNat ≠ 4294967295 := fun e => h (BitVec.eq_of_toNat_eq (by simpa using e))
    omega
  · rintro h rfl
    simp at h

/-- The bookkeeping of a good frame, whole. -/
theorem countGood_cases (s : State) :
    (s.cmdRx ≠ 0xFFFFFFFF#32 ∧ countGood s = .next (stampLastCmd (s.setCmdRx (s.cmdRx + 1#32)))) ∨
    (s.cmdRx = 0xFFFFFFFF#32 ∧ countGood s = .refused .goodCounterExhausted) := by
  by_cases h : s.cmdRx = 0xFFFFFFFF#32
  · exact .inr ⟨h, by simp [countGood, h, counterNext_top]⟩
  · exact .inl ⟨h, by simp [countGood, counterNext_of_ne h]⟩

/-- The bookkeeping of a bad frame, whole. -/
theorem countBad_cases (s : State) :
    (s.badRx ≠ 0xFFFFFFFF#32 ∧ countBad s = .next (s.setBadRx (s.badRx + 1#32))) ∨
    (s.badRx = 0xFFFFFFFF#32 ∧ countBad s = .refused .badCounterExhausted) := by
  by_cases h : s.badRx = 0xFFFFFFFF#32
  · exact .inr ⟨h, by simp [countBad, h, counterNext_top]⟩
  · exact .inl ⟨h, by simp [countBad, counterNext_of_ne h]⟩

/-- The activity indicator: in Binary one inversion and one toggle, in text nothing (43_dispatcher.md R171). -/
theorem signalActivity_eq (s : State) :
    signalActivity s =
      issueAll (signalOps s.cfg) { s with act := if s.cfg.proto = .binary then !s.act else s.act } := by
  cases h : s.cfg.proto <;> simp [signalActivity, signalOps, h, emit_eq, issueAll, State.setAct]

/-- The activity toggle leaves the memories alone. -/
@[simp] theorem replay_signalOps (c : Config) (m : Memory) : replay c (signalOps c) m = m := by
  unfold signalOps
  split <;> rfl

/-- The exception, whole (60_exceptions.md R216). -/
theorem takeMalformed_cases (s : State) :
    (s.badRx ≠ 0xFFFFFFFF#32 ∧ takeMalformed s = .next (afterBad s)) ∨
    (s.badRx = 0xFFFFFFFF#32 ∧ takeMalformed s = .refused .badCounterExhausted) := by
  have hb : (signalActivity s).badRx = s.badRx := by simp [signalActivity_eq]
  obtain ⟨h, e⟩ | ⟨h, e⟩ := countBad_cases (signalActivity s)
  · refine .inl ⟨by rwa [hb] at h, ?_⟩
    rw [takeMalformed, e, hb, signalActivity_eq]
    simp [afterBad, issueAll, State.setBadRx]
  · exact .inr ⟨by rwa [hb] at h, e⟩

/-! ## The reporter -/

theorem isText_iff {c : Config} : c.isText = true ↔ c.proto ≠ .binary := by
  cases h : c.proto <;> simp [Config.isText, h]

theorem hasLastCmd_iff {c : Config} : c.hasLastCmd = true ↔ c.statusLField = true ∧ c.proto ≠ .binary := by
  simp [Config.hasLastCmd, isText_iff]

/-- `lastCmd` is stamped where it exists, and nothing else is written. -/
theorem stampLastCmd_eq (s : State) :
    stampLastCmd s = { s with lastCmd := if s.cfg.statusLField = true ∧ s.cfg.proto ≠ .binary then s.now else s.lastCmd } := by
  unfold stampLastCmd
  by_cases h : s.cfg.hasLastCmd = true
  · simp only [h, if_true, if_pos (hasLastCmd_iff.1 h), State.setLastCmd]
  · simp only [h, Bool.false_eq_true, if_false, if_neg (fun k => h (hasLastCmd_iff.2 k))]

/-- The bytes of a number, most significant first, are its base-256 digits (20_memory.md R61). -/
theorem be32_eq (v : Word32) : be32 v = bigEndian v.toNat := by
  have hv := v.isLt
  simp only [be32, bigEndian, List.cons.injEq, and_true]
  refine ⟨?_, ?_, ?_, ?_⟩ <;>
    exact BitVec.eq_of_toNat_eq (by simp [BitVec.extractLsb'_toNat, Nat.shiftRight_eq_div_pow])

/-- After the clamp the subtraction is the plain difference, 0 where the timestamp was in the future (44_state_reporter.md R196, R197). -/
theorem elapsed_clampTime_toNat (now t : Word32) : (elapsed now (clampTime t now)).toNat = now.toNat - t.toNat := by
  have hn := now.isLt
  have ht := t.isLt
  unfold elapsed clampTime
  split
  · rename_i h
    have : now.toNat < t.toNat := h
    simp
    omega
  · rename_i h
    have : ¬now.toNat < t.toNat := h
    rw [BitVec.toNat_sub]
    omega

/-- The status frame of a state whose `lastCmd` has been clamped, as the spec spells it. -/
theorem statusFrame_clampLastCmd (s : State) :
    statusFrame (clampLastCmd s) = reportBytes s.cfg s.cmdRx.toNat s.badRx.toNat (s.now.toNat - s.lastCmd.toNat) := by
  cases hp : s.cfg.proto <;> by_cases hl : s.cfg.statusLField = true <;>
    simp [statusFrame, clampLastCmd, Config.hasLastCmd, Config.isText, hp, hl, reportBytes, statusLine, statusField, statusPacket,
      be32_eq, elapsed_clampTime_toNat, chC, chB, chL, chS, chColon, chSemicolon, chCR, chLF]

/-- Emitting a status frame: the clamp of `lastCmd` where it exists, and one `OutWrite` (44_state_reporter.md R190 to R192). -/
theorem emitStatus_eq (s : State) :
    emitStatus s = { s with
      lastCmd := if s.cfg.statusLField = true ∧ s.cfg.proto ≠ .binary ∧ s.now.toNat < s.lastCmd.toNat then s.now else s.lastCmd
      out := s.out ++ [.outWrite (reportBytes s.cfg s.cmdRx.toNat s.badRx.toNat (s.now.toNat - s.lastCmd.toNat))] } := by
  unfold emitStatus
  simp only [statusFrame_clampLastCmd]
  unfold clampLastCmd
  by_cases h : s.cfg.hasLastCmd = true
  · obtain ⟨h1, h2⟩ := hasLastCmd_iff.1 h
    simp only [h, if_true, emit, Memory.apply, State.setMem, State.pushOut, State.setLastCmd, clampTime, BitVec.lt_def, h1, h2,
      ne_eq, not_false_eq_true, true_and]
  · have h' : ¬(s.cfg.statusLField = true ∧ s.cfg.proto ≠ .binary ∧ s.now.toNat < s.lastCmd.toNat) :=
      fun k => h (hasLastCmd_iff.2 ⟨k.1, k.2.1⟩)
    simp only [h, if_neg h', Bool.false_eq_true, if_false, emit, Memory.apply, State.setMem, State.pushOut]

/-- `Tick` writes at most `lastSent`, `lastCmd`, `dirty` and the output, and issues nothing or one `OutWrite` (44_state_reporter.md R194, R195). -/
theorem tick_cases (s : State) :
    (s.cfg.report = .onDemand ∧ tick s = s) ∨
    (s.cfg.report = .push ∧ ∃ t lc, tick s = { s with
        lastSent := t
        lastCmd := lc
        dirty := false
        out := s.out ++ [.outWrite (reportBytes s.cfg s.cmdRx.toNat s.badRx.toNat (s.now.toNat - s.lastCmd.toNat))] } ∧
      (s.cfg.hasLastCmd = false → lc = s.lastCmd)) ∨
    (s.cfg.report = .push ∧ ∃ t, tick s = { s with lastSent := t }) := by
  cases hr : s.cfg.report with
  | onDemand => exact .inl ⟨rfl, by simp [tick, hr]⟩
  | push =>
    refine .inr ?_
    rw [show tick s = tickPush s by simp [tick, hr]]
    unfold tickPush
    dsimp only
    split
    · refine .inl ⟨rfl, s.now, _, by rw [emitStatus_eq]; rfl, fun h => ?_⟩
      have : ¬(s.cfg.statusLField = true ∧ s.cfg.proto ≠ .binary ∧ s.now.toNat < s.lastCmd.toNat) :=
        fun k => by simp [hasLastCmd_iff.2 ⟨k.1, k.2.1⟩] at h
      exact if_neg this
    · exact .inr ⟨rfl, _, rfl⟩

/-! ## The effect of each command kind -/

/-- `PixSet` on consecutive indexes from `idx`, in order. -/
def runOps (idx : Nat) (cols : List Color) : List OutOp := cols.mapIdx fun j col => OutOp.pixSet (idx + j) col

theorem runOps_cons (idx : Nat) (col : Color) (cols : List Color) :
    runOps idx (col :: cols) = .pixSet idx col :: runOps (idx + 1) cols := by
  simp [runOps, List.mapIdx_cons, Nat.add_assoc, Nat.add_comm 1]

theorem pixSetRun_eq (idx : Nat) (cols : List Color) (s : State) : pixSetRun idx cols s = issueAll (runOps idx cols) s := by
  induction cols generalizing idx s with
  | nil => simp [pixSetRun, runOps]
  | cons col cols ih => rw [pixSetRun, ih, emit_eq, issueAll_append, runOps_cons]; rfl

theorem doGetState_cases (s : State) :
    (s.cfg.report = .onDemand ∧ doGetState s = emitStatus s) ∨ (s.cfg.report = .push ∧ doGetState s = s.setDirty true) := by
  cases h : s.cfg.report <;> simp [doGetState, h, markDirty]

/-- The operations of a command that reads nothing but `cfg`: every kind but GetState, None and Malformed (43_dispatcher.md R173 to R181). -/
def commandOps (c : Config) : Command → List OutOp
  | .none => []
  | .malformed _ => []
  | .getState => []
  | .latch => (if c.hasPixels = true then [.pixFlush] else []) ++ (if c.hasBitarray = true then [.bitCommit] else [])
  | .clearLeds => runOps 0 (List.replicate c.n Color.dark) ++ [.pixFlush]
  | .setOneLed led col => .pixSet led col :: (if c.autoFlush = true then [.pixFlush] else [])
  | .setBatchLeds start cols => runOps start cols
  | .setArray bytes => [.bitLoad bytes]
  | .setArrayBit k v => [.bitSet k v]
  | .reset => [.restartReq]

/-- Every command kind but GetState and Reset does nothing but issue its operations. -/
theorem execute_eq {cmd : Command} (hg : cmd ≠ .getState) (hr : cmd ≠ .reset) (s : State) :
    execute cmd s = issueAll (commandOps s.cfg cmd) s := by
  cases cmd with
  | none => simp [execute, commandOps]
  | malformed e => simp [execute, commandOps]
  | getState => exact absurd rfl hg
  | latch =>
    cases hp : s.cfg.hasPixels <;> cases hb : s.cfg.hasBitarray <;>
      simp [execute, doLatch, commandOps, hp, hb, emit_eq, issueAll_append]
  | clearLeds => simp [execute, doClearLeds, commandOps, pixSetRun_eq, emit_eq, issueAll_append]
  | setOneLed led col =>
    cases ha : s.cfg.autoFlush <;> simp [execute, doSetOneLed, commandOps, ha, emit_eq, issueAll_append]
  | setBatchLeds start cols => simp [execute, doSetBatchLeds, commandOps, pixSetRun_eq]
  | setArray bytes => simp [execute, doSetArray, commandOps, emit_eq]
  | setArrayBit k v => simp [execute, doSetArrayBit, commandOps, emit_eq]
  | reset => exact absurd rfl hr

/-- Reset issues the restart request and halts (43_dispatcher.md R181). -/
theorem doReset_eq (s : State) : doReset s = { issueAll [.restartReq] s with halted := true } := rfl

/-! ## Completing a frame -/

/-- The bookkeeping after the activity indicator. -/
theorem stamp_signalActivity (s : State) :
    stampLastCmd ((signalActivity s).setCmdRx (s.cmdRx + 1#32)) = issueAll (signalOps s.cfg) (afterGood s) := by
  simp [signalActivity_eq, stampLastCmd_eq, afterGood, issueAll, State.setCmdRx]

@[simp] theorem signalActivity_cfg (s : State) : (signalActivity s).cfg = s.cfg := by simp [signalActivity_eq]
@[simp] theorem signalActivity_cmdRx (s : State) : (signalActivity s).cmdRx = s.cmdRx := by simp [signalActivity_eq]
@[simp] theorem signalActivity_badRx (s : State) : (signalActivity s).badRx = s.badRx := by simp [signalActivity_eq]
@[simp] theorem afterGood_cfg (s : State) : (afterGood s).cfg = s.cfg := rfl

/-- A good frame whose command only issues operations: counted once, its operations after the activity toggle, whatever `BOOKKEEP`. -/
theorem completeGood_eq {cmd : Command} (hg : cmd ≠ .getState) (hr : cmd ≠ .reset) {s : State} (hc : s.cmdRx ≠ 0xFFFFFFFF#32) :
    completeGood cmd s = .next (issueAll (signalOps s.cfg ++ commandOps s.cfg cmd) (afterGood s)) := by
  unfold completeGood
  cases hb : s.cfg.bookkeep with
  | before =>
    obtain ⟨-, e⟩ | ⟨h, -⟩ := countGood_cases (signalActivity s)
    · simp only [signalActivity_cfg, hb, e, andThen, signalActivity_cmdRx, stamp_signalActivity, execute_eq hg hr, issueAll_append,
        issueAll_cfg, afterGood_cfg]
    · simp only [signalActivity_cmdRx] at h; exact absurd h hc
  | after =>
    simp only [signalActivity_cfg, hb, execute_eq hg hr]
    obtain ⟨-, e⟩ | ⟨h, -⟩ := countGood_cases (issueAll (commandOps s.cfg cmd) (signalActivity s))
    · rw [e]
      simp [signalActivity_eq, stampLastCmd_eq, afterGood, issueAll, State.setCmdRx, replay_append]
    · simp only [issueAll_cmdRx, signalActivity_cmdRx] at h; exact absurd h hc

/-- A full counter refuses the frame, under either `BOOKKEEP` (10_state.md R30). -/
theorem completeGood_top (cmd : Command) {s : State} (hc : s.cmdRx = 0xFFFFFFFF#32) :
    completeGood cmd s = .refused .goodCounterExhausted := by
  have hx : ∀ t : State, t.cmdRx = 0xFFFFFFFF#32 → countGood t = .refused .goodCounterExhausted := by
    intro t ht
    obtain ⟨h, -⟩ | ⟨-, e⟩ := countGood_cases t
    · exact absurd ht h
    · exact e
  have hexec : (execute cmd (signalActivity s)).cmdRx = s.cmdRx := by
    by_cases hg : cmd = .getState
    · subst hg
      obtain ⟨-, e⟩ | ⟨-, e⟩ := doGetState_cases (signalActivity s)
      · simp [execute, e, emitStatus_eq]
      · simp [execute, e]
    · by_cases hr : cmd = .reset
      · subst hr
        simp [execute, doReset_eq]
      · rw [execute_eq hg hr]
        simp
  unfold completeGood
  cases hb : s.cfg.bookkeep with
  | before => simp [hb, hx (signalActivity s) (by simp [hc]), andThen]
  | after => simp [hb, hx _ (hexec.trans hc)]

/-- GetState under the push policy: counted, `dirty`, nothing written but the activity toggle (43_dispatcher.md R172). -/
theorem completeGetState_push {s : State} (hr : s.cfg.report = .push) (hc : s.cmdRx ≠ 0xFFFFFFFF#32) :
    completeGood .getState s = .next { issueAll (signalOps s.cfg) (afterGood s) with dirty := true } := by
  have hd : ∀ u : State, u.cfg = s.cfg → execute .getState u = u.setDirty true := by
    intro u hu
    simp [execute, doGetState, hu, hr, markDirty]
  unfold completeGood
  cases hb : s.cfg.bookkeep with
  | before =>
    obtain ⟨-, e⟩ | ⟨h, -⟩ := countGood_cases (signalActivity s)
    · simp only [signalActivity_cfg, hb, e, andThen, signalActivity_cmdRx, stamp_signalActivity]
      rw [hd _ (by simp)]
      rfl
    · simp only [signalActivity_cmdRx] at h; exact absurd h hc
  | after =>
    simp only [signalActivity_cfg, hb]
    rw [hd _ (by simp)]
    obtain ⟨-, e⟩ | ⟨h, -⟩ := countGood_cases ((signalActivity s).setDirty true)
    · rw [e]
      simp [signalActivity_eq, stampLastCmd_eq, afterGood, issueAll, State.setCmdRx, State.setDirty]
    · simp only [State.setDirty_cmdRx, signalActivity_cmdRx] at h; exact absurd h hc

/-- GetState under the on-demand policy: counted, and the status frame after the activity toggle; the reported count and the `L:` value are
those before or after the bookkeeping, by `BOOKKEEP` (40_frame_reader.md R117, 43_dispatcher.md R172). -/
theorem completeGetState_onDemand {s : State} (hr : s.cfg.report = .onDemand) (hc : s.cmdRx ≠ 0xFFFFFFFF#32) :
    completeGood .getState s = .next { issueAll (signalOps s.cfg) (afterGood s) with
      out := s.out ++ signalOps s.cfg ++ [.outWrite (reportBytes s.cfg
        (if s.cfg.bookkeep = .before then s.cmdRx.toNat + 1 else s.cmdRx.toNat) s.badRx.toNat
        (if s.cfg.bookkeep = .before then s.now.toNat - (afterGood s).lastCmd.toNat else s.now.toNat - s.lastCmd.toNat))] } := by
  have hd : ∀ u : State, u.cfg = s.cfg → execute .getState u = emitStatus u := by
    intro u hu
    simp [execute, doGetState, hu, hr]
  have hn : (s.cmdRx + 1#32).toNat = s.cmdRx.toNat + 1 := toNat_counter_succ hc
  unfold completeGood
  cases hb : s.cfg.bookkeep with
  | before =>
    obtain ⟨-, e⟩ | ⟨h, -⟩ := countGood_cases (signalActivity s)
    · simp only [signalActivity_cfg, hb, e, andThen, signalActivity_cmdRx, stamp_signalActivity]
      rw [hd _ (by simp), emitStatus_eq]
      by_cases hl : s.cfg.statusLField = true ∧ s.cfg.proto ≠ .binary
      · simp [issueAll, afterGood, hl, hn]
      · simp [issueAll, afterGood, hl, hn, ← and_assoc]
    · simp only [signalActivity_cmdRx] at h; exact absurd h hc
  | after =>
    simp only [signalActivity_cfg, hb]
    rw [hd _ (by simp)]
    obtain ⟨-, e⟩ | ⟨h, -⟩ := countGood_cases (emitStatus (signalActivity s))
    · rw [e]
      simp only [emitStatus_eq, signalActivity_eq, stampLastCmd_eq, State.setCmdRx, issueAll, afterGood, replay_signalOps]
      by_cases hl : s.cfg.statusLField = true ∧ s.cfg.proto ≠ .binary
      · simp [hl]
      · simp [hl, ← and_assoc]
    · simp only [emitStatus_eq, signalActivity_cmdRx] at h; exact absurd h hc

/-- A Reset frame, whole (43_dispatcher.md R181; log entry 10). -/
theorem completeReset_cases (s : State) :
    (s.cfg.bookkeep = .before ∧ s.cmdRx ≠ 0xFFFFFFFF#32 ∧
      completeReset s = .next { issueAll (signalOps s.cfg ++ [.restartReq]) (afterGood s) with halted := true }) ∨
    (s.cfg.bookkeep = .before ∧ s.cmdRx = 0xFFFFFFFF#32 ∧ completeReset s = .refused .goodCounterExhausted) ∨
    (s.cfg.bookkeep = .after ∧
      completeReset s = .next { issueAll [.restartReq] (signalActivity s) with halted := true }) := by
  unfold completeReset
  cases hb : s.cfg.bookkeep with
  | before =>
    obtain ⟨h, e⟩ | ⟨h, e⟩ := countGood_cases (signalActivity s)
    · refine .inl ⟨rfl, by simpa using h, ?_⟩
      simp only [signalActivity_cfg, hb, e, andThen, signalActivity_cmdRx, stamp_signalActivity, execute, doReset_eq, issueAll_append]
    · exact .inr (.inl ⟨rfl, by simpa using h, by simp only [signalActivity_cfg, hb, e, andThen]⟩)
  | after => exact .inr (.inr ⟨rfl, by simp only [signalActivity_cfg, hb, execute, doReset_eq]⟩)

/-- Every instruction's meaning is the completion of its command (43_dispatcher.md R170; opcode_table.json `kind`). -/
theorem exec_eq (i : Instr) (s : State) : exec i s = completeFrame i.command s := by
  cases i <;> rfl

end Sys2Proof.Machine
end

