-- ==== Sys2Proof/Laws/Step.lean ====
section
/-! SUPPORT. What a step can do: one lemma for a line's end, one for each event, one for the whole step. -/

namespace Sys2Proof.Machine

/-- The frame a line's terminator finalizes: the overflow flag decides before the decoder is asked (40_frame_reader.md R114). -/
def lineResult (s : State) : Except MalformedCause Instr :=
  if s.ovf then .error .frameOverflow else decode s.cfg (currentFrame s)

theorem endLine_eq (s : State) : endLine s = finishFrame (lineResult s) (clearReader s) := rfl

/-- A finalized frame is a good command or the exception. -/
theorem finishFrame_cases (d : Except MalformedCause Instr) (s : State) :
    (∃ i, d = .ok i ∧ finishFrame d s = exec i s) ∨ (∃ e, d = .error e ∧ finishFrame d s = takeMalformed s) := by
  cases d with
  | ok i => exact .inl ⟨i, rfl, rfl⟩
  | error e => exact .inr ⟨e, rfl, rfl⟩

/-- A data byte, whole (40_frame_reader.md R113). -/
theorem storeByte_eq (b : Byte) (s : State) :
    storeByte b s =
      if s.cur < s.cfg.cap then
        { s with
          mem := { s.mem with fb := s.mem.fb.set s.cur b }
          cur := s.cur + 1
          ovf := s.ovf || decide (s.cur + 1 = s.cfg.cap) }
      else s := by
  unfold storeByte advanceReader
  split
  · rename_i h
    have h' : (s.setMem (s.mem.fbStore s.cur b)).cur < (s.setMem (s.mem.fbStore s.cur b)).cfg.cap := h
    rw [if_pos h']
    rfl
  · rfl

/-- What handling one event can do when it answers a next state. `u` is the state with the event's clock sample. -/
theorem handle_cases {e : Event} {s t : State} (h : handle e s = .next t) :
    (e = .extReset ∧ t = extReset s) ∨
    (e ≠ .extReset ∧ s.halted = true ∧ t = s) ∨
    (s.halted = false ∧ s.cfg.isText = true ∧ ∃ b now, e = .rxByte b now ∧ b ≠ chLF ∧ t = storeByte b (s.setNow now)) ∨
    (s.halted = false ∧ s.cfg.isText = true ∧ ∃ now, e = .rxByte chLF now ∧
      finishFrame (lineResult s) (clearReader (s.setNow now)) = .next t) ∨
    (s.halted = false ∧ s.cfg.isText = false ∧ ∃ p now, e = .packet p now ∧ p.length ≤ s.cfg.pktMax ∧
      finishFrame (decode s.cfg p) (s.setNow now) = .next t) ∨
    (s.halted = false ∧ ∃ now, e = .tick now ∧ t = tick (s.setNow now)) := by
  cases e with
  | extReset =>
    simp only [handle, Host.Outcome.next.injEq] at h
    exact .inl ⟨rfl, h.symm⟩
  | rxByte b now =>
    refine .inr ?_
    by_cases hh : s.halted = true
    · simp only [handle, hh, if_true, Host.Outcome.next.injEq] at h
      exact .inl ⟨nofun, hh, h.symm⟩
    · by_cases ht : s.cfg.isText = true
      · have hf : s.halted = false := by simpa using hh
        simp only [handle, hf, Bool.false_eq_true, if_false, ht, if_true, rxByte] at h
        by_cases hb : b = chLF
        · subst hb
          rw [if_pos rfl] at h
          exact .inr (.inr (.inl ⟨hf, ht, now, rfl, h⟩))
        · rw [if_neg hb, Host.Outcome.next.injEq] at h
          exact .inr (.inl ⟨hf, ht, b, now, rfl, hb, h.symm⟩)
      · simp [handle, hh, ht] at h
  | packet p now =>
    refine .inr ?_
    by_cases hh : s.halted = true
    · simp only [handle, hh, if_true, Host.Outcome.next.injEq] at h
      exact .inl ⟨nofun, hh, h.symm⟩
    · have hf : s.halted = false := by simpa using hh
      by_cases ht : s.cfg.isText = true
      · simp [handle, hh, ht] at h
      · have ht' : s.cfg.isText = false := by simpa using ht
        by_cases hp : p.length ≤ s.cfg.pktMax
        · simp only [handle, hf, Bool.false_eq_true, if_false, ht', if_pos hp, rxPacket] at h
          exact .inr (.inr (.inr (.inl ⟨hf, ht', p, now, rfl, hp, h⟩)))
        · simp [handle, hh, ht, hp] at h
  | tick now =>
    refine .inr ?_
    by_cases hh : s.halted = true
    · simp only [handle, hh, if_true, Host.Outcome.next.injEq] at h
      exact .inl ⟨nofun, hh, h.symm⟩
    · have hf : s.halted = false := by simpa using hh
      simp only [handle, hf, Bool.false_eq_true, if_false, Host.Outcome.next.injEq] at h
      exact .inr (.inr (.inr (.inr ⟨hf, now, rfl, h.symm⟩)))

/-- What a step can do when it answers a next state: the configuration is admitted, and either no event was pending and nothing
changed, or the next event was handled. -/
theorem step_cases {s t : State} (h : step s = .next t) :
    s.cfg.wf = true ∧ ((s.inputs = [] ∧ t = s) ∨ ∃ e rest, s.inputs = e :: rest ∧ handle e (s.setInputs rest) = .next t) := by
  unfold step nextEvent at h
  split at h
  · rename_i hw
    split at h
    · rename_i hi
      exact ⟨hw, .inl ⟨hi, (Host.Outcome.next.injEq _ _ ▸ h).symm⟩⟩
    · rename_i e rest hi
      exact ⟨hw, .inr ⟨e, rest, hi, h⟩⟩
  · cases h

/-- A step with an event pending handles it. -/
theorem step_of_cons {s : State} {e : Event} {rest : List Event} (hw : s.cfg.wf = true) (hi : s.inputs = e :: rest) :
    step s = handle e (s.setInputs rest) := by
  simp [step, nextEvent, hw, hi]

end Sys2Proof.Machine
end

