-- ==== Sys2Proof/Laws/PerInstr.lean ====
section
/-! SUPPORT. Facts stated instruction by instruction: the family FrameShape (first byte and length of each row's frame, opcode_table.json). -/

namespace Sys2Proof.Laws.FrameShape

/-- The row's `match` byte (opcode_table.json). -/
def rowMatch : Instr → Byte
  | .textAG => 0x47#8
  | .textAL => 0x4C#8
  | .textAC => 0x43#8
  | .textAO _ _ => 0x4F#8
  | .textBS => 0x53#8
  | .textBX => 0x58#8
  | .textBL _ _ => 0x4C#8
  | .binaryG => 0x47#8
  | .binaryL => 0x4C#8
  | .binaryC => 0x43#8
  | .binaryO _ _ => 0x4F#8
  | .binaryB _ _ => 0x42#8
  | .binaryA _ => 0x41#8
  | .binary0 _ => 0x30#8
  | .binary1 _ => 0x31#8
  | .binaryR => 0x52#8

/-- The row's `size`, where the table gives one (opcode_table.json; 42_binary_commands.md R163), and 1 for a text row without operand. -/
def rowSize (c : Config) : Instr → Option Nat
  | .textAG => some 1
  | .textAL => some 1
  | .textAC => some 1
  | .textAO _ _ => none
  | .textBS => some 1
  | .textBX => some 1
  | .textBL _ _ => none
  | .binaryG => some 1
  | .binaryL => some 1
  | .binaryC => some 1
  | .binaryO _ _ => some 5
  | .binaryB _ cols => some (2 + 3 * cols.length)
  | .binaryA _ => some (1 + c.m / 8)
  | .binary0 _ => some 2
  | .binary1 _ => some 2
  | .binaryR => some 1

/-- The frame of a well-formed instruction begins with its row's `match` byte and has its row's size. -/
def Statement (i : Instr) : Prop :=
  ∀ c : Config, i.wf c = true →
    (encode i).head? = some (rowMatch i) ∧ ∀ n, rowSize c i = some n → (encode i).length = n

theorem flatMap_colorBytes_length (cols : List Color) : (cols.flatMap colorBytes).length = 3 * cols.length := by
  induction cols with
  | nil => rfl
  | cons col cols ih => simp [List.flatMap_cons, colorBytes, ih] ; omega

theorem textAG : Statement .textAG := fun _ _ => ⟨rfl, fun _ h => Option.some.inj h⟩
theorem textAL : Statement .textAL := fun _ _ => ⟨rfl, fun _ h => Option.some.inj h⟩
theorem textAC : Statement .textAC := fun _ _ => ⟨rfl, fun _ h => Option.some.inj h⟩
theorem textAO (led : Nat) (color : Color) : Statement (.textAO led color) := fun _ _ => ⟨rfl, nofun⟩
theorem textBS : Statement .textBS := fun _ _ => ⟨rfl, fun _ h => Option.some.inj h⟩
theorem textBX : Statement .textBX := fun _ _ => ⟨rfl, fun _ h => Option.some.inj h⟩
theorem textBL (led : Nat) (color : Color) : Statement (.textBL led color) := fun _ _ => ⟨rfl, nofun⟩
theorem binaryG : Statement .binaryG := fun _ _ => ⟨rfl, fun _ h => Option.some.inj h⟩
theorem binaryL : Statement .binaryL := fun _ _ => ⟨rfl, fun _ h => Option.some.inj h⟩
theorem binaryC : Statement .binaryC := fun _ _ => ⟨rfl, fun _ h => Option.some.inj h⟩
theorem binaryO (led : Nat) (color : Color) : Statement (.binaryO led color) :=
  fun _ _ => ⟨rfl, fun _ h => Option.some.inj h⟩
theorem binaryB (start : Nat) (colors : List Color) : Statement (.binaryB start colors) := fun _ _ =>
  ⟨rfl, fun _ h => by
    rw [← Option.some.inj h]
    simp [encode, -List.length_flatMap, flatMap_colorBytes_length]
    omega⟩
theorem binaryA (bytes : List Byte) : Statement (.binaryA bytes) := fun c hw =>
  ⟨rfl, fun _ h => by
    have hl : bytes.length = c.m / 8 := by simp_all [Instr.wf, Instr.operandsOk]
    rw [← Option.some.inj h]
    simp [encode, hl]
    omega⟩
theorem binary0 (bit : Nat) : Statement (.binary0 bit) := fun _ _ => ⟨rfl, fun _ h => Option.some.inj h⟩
theorem binary1 (bit : Nat) : Statement (.binary1 bit) := fun _ _ => ⟨rfl, fun _ h => Option.some.inj h⟩
theorem binaryR : Statement .binaryR := fun _ _ => ⟨rfl, fun _ h => Option.some.inj h⟩

end Sys2Proof.Laws.FrameShape
end

