-- ==== Sys2Proof/Tests/Slice0.lean ====
section
/-! SUPPORT. The model's own tests. Expected results are the spec's: 95_test_vectors.md where a vector is named, else hand evaluation of the
rule named. Then one witness for the hypotheses of every obligation that has some. -/

namespace Sys2Proof.Tests

open Sys2Proof Sys2Proof.Machine

/-! ## Helpers -/

/-- `BASE` with a protocol. -/
def cfgA : Config := { Config.base with proto := .textA }
def cfgB : Config := { Config.base with proto := .textB }
def cfgBin : Config := Config.base

/-- A small instance: three pixels, sixteen bits. -/
def small (p : Proto) : Config := { Config.base with proto := p, n := 3, m := 16 }

/-- Known contents for the small instances. -/
def someMem : Memory where
  fb := List.replicate 20 0x7A#8
  pixp := [⟨1#8, 2#8, 3#8⟩, ⟨4#8, 5#8, 6#8⟩, ⟨7#8, 8#8, 9#8⟩]
  pixv := [⟨9#8, 9#8, 9#8⟩, ⟨9#8, 9#8, 9#8⟩, ⟨9#8, 9#8, 9#8⟩]
  bitp := [0xF0#8, 0x00#8]
  bitv := [0x55#8, 0xAA#8]

/-- A state of the instance with known contents, four good and two bad frames counted. -/
def st (c : Config) (es : List Event) : State :=
  { State.resetWith c 0 with mem := someMem, cmdRx := 4#32, badRx := 2#32, inputs := es }

/-- A text state whose line `f` has been received. -/
def line (c : Config) (f : List Byte) : State :=
  { st c [.rxByte 0x0A#8 7#32] with
    mem := { someMem with fb := f ++ someMem.fb.drop f.length }, cur := f.length }

/-- A binary state whose next event is the packet `p`. -/
def packet (c : Config) (p : List Byte) : State := st c [.packet p 7#32]

/-- The next state, if there is one. -/
def next? (r : Result) : Option State :=
  match r with
  | .next t => some t
  | .fault _ => none
  | .refused _ => none

/-- The decoded instruction, if there is one. -/
def ok? (d : Except MalformedCause Instr) : Option Instr :=
  match d with
  | .ok i => some i
  | .error _ => none

/-- The cause of a Malformed frame, if it is one. -/
def err? (d : Except MalformedCause Instr) : Option MalformedCause :=
  match d with
  | .ok _ => none
  | .error e => some e

/-- What one step does to the counters, and what it outputs. -/
def seen (s : State) : Option (Word32 × Word32 × List OutOp) := (next? (step s)).map fun t => (t.cmdRx, t.badRx, t.out)

/-- What one step leaves in the pixel memories. -/
def pixels (s : State) : Option (List Color × List Color) := (next? (step s)).map fun t => (t.mem.pixp, t.mem.pixv)

/-- What one step leaves in the bit memories. -/
def bits (s : State) : Option (List Byte × List Byte) := (next? (step s)).map fun t => (t.mem.bitp, t.mem.bitv)

/-! ## WellFormed: each check refuses an ill-formed term -/

theorem test_wf_proto : Instr.wf cfgA .textBS = false := by decide
theorem test_wf_pixels_absent : Instr.wf { cfgBin with hasPixels := false } .binaryC = false := by decide
theorem test_wf_bitarray_absent : Instr.wf { cfgBin with hasBitarray := false } (.binary1 0) = false := by decide
theorem test_wf_led : Instr.wf cfgA (.textAO 256 Color.dark) = false ∧ Instr.wf cfgB (.textBL 256 Color.dark) = false ∧
    Instr.wf cfgBin (.binaryO 256 Color.dark) = false := by decide
theorem test_wf_batch_start : Instr.wf cfgBin (.binaryB 256 [Color.dark]) = false := by decide
theorem test_wf_batch_empty : Instr.wf cfgBin (.binaryB 0 []) = false := by decide
theorem test_wf_array_length : Instr.wf (small .binary) (.binaryA [0#8]) = false ∧
    Instr.wf (small .binary) (.binaryA [0#8, 0#8, 0#8]) = false := by decide
theorem test_wf_bit : Instr.wf cfgBin (.binary0 256) = false ∧ Instr.wf cfgBin (.binary1 256) = false := by decide
theorem test_wf_bounds_accepted : Instr.wf cfgA (.textAO 255 Color.dark) = true ∧ Instr.wf cfgBin (.binaryB 255 [Color.dark]) = true ∧
    Instr.wf (small .binary) (.binaryA [0#8, 0#8]) = true ∧ Instr.wf cfgBin (.binary1 255) = true := by decide
theorem test_wf_config : Config.wf Config.base = true ∧ Config.wf { Config.base with m := 12 } = false ∧
    Config.wf { Config.base with cap := 1 } = false ∧ Config.wf { Config.base with pktMax := 10 } = false ∧
    Config.wf { Config.base with n := 0 } = false ∧ Config.wf { Config.base with hasPixels := false, hasBitarray := false } = false := by
  decide

/-! ## Decode: a word of every row, from the spec's encoding of it -/

/-- Vectors T30, T32, T34. -/
theorem test_decode_textA_letters : ok? (decode cfgA [0x47#8]) = some .textAG ∧ ok? (decode cfgA [0x4C#8]) = some .textAL ∧
    ok? (decode cfgA [0x43#8]) = some .textAC := by decide
/-- Vector T1, `O10,16711680`. -/
theorem test_decode_textAO :
    ok? (decode cfgA [0x4F#8, 0x31#8, 0x30#8, 0x2C#8, 0x31#8, 0x36#8, 0x37#8, 0x31#8, 0x31#8, 0x36#8, 0x38#8, 0x30#8]) =
      some (.textAO 10 ⟨0xFF#8, 0x00#8, 0x00#8⟩) := by decide
/-- Vector T7, `O2,66051`: red, green and blue from their own bits. -/
theorem test_decode_color_fields : ok? (decode cfgA [0x4F#8, 0x32#8, 0x2C#8, 0x36#8, 0x36#8, 0x30#8, 0x35#8, 0x31#8]) =
    some (.textAO 2 ⟨1#8, 2#8, 3#8⟩) := by decide
/-- Vectors T31, T35, T33. -/
theorem test_decode_textB : ok? (decode cfgB [0x53#8]) = some .textBS ∧ ok? (decode cfgB [0x58#8]) = some .textBX ∧
    ok? (decode cfgB [0x4C#8, 0x33#8, 0x2C#8, 0x32#8, 0x35#8, 0x35#8]) = some (.textBL 3 ⟨0#8, 0#8, 255#8⟩) := by decide
/-- Vectors T4, T14, T9, T11, T16, T20 under EMPTY_INT = Malformed, T36 under TEXT_TRAILING = Malformed, T23, T39. -/
theorem test_decode_text_malformed :
    err? (decode cfgA [0x4F#8, 0x32#8, 0x35#8, 0x36#8, 0x2C#8, 0x30#8]) = some .outOfRange ∧
    err? (decode cfgA [0x4F#8, 0x33#8, 0x30#8, 0x30#8, 0x2C#8, 0x35#8]) = some .outOfRange ∧
    err? (decode cfgA [0x4F#8, 0x31#8, 0x30#8]) = some .missingSeparator ∧
    err? (decode cfgA [0x4F#8, 0x31#8, 0x2C#8, 0x35#8, 0x2C#8, 0x36#8]) = some .missingSeparator ∧
    err? (decode cfgA [0x4F#8, 0x2D#8, 0x31#8, 0x2C#8, 0x35#8]) = some .negativeField ∧
    err? (decode { cfgA with emptyInt := .malformed } [0x4F#8, 0x2C#8]) = some .emptyField ∧
    err? (decode { cfgA with textTrailing := .malformed } [0x47#8, 0x0D#8]) = some .trailingBytes ∧
    err? (decode cfgA [0x6F#8, 0x31#8, 0x2C#8, 0x32#8]) = some .unknownOpcode ∧ err? (decode cfgA []) = some .emptyFrame := by decide
/-- Vectors T12 (`O+1,5`, `O--1,5`, `O1,2-`), T20, T21, T22, T16 with T17 in one line under `ClampZero`, T10. -/
theorem test_decode_text_signs :
    err? (decode cfgA [0x4F#8, 0x2B#8, 0x31#8, 0x2C#8, 0x35#8]) = some .missingSeparator ∧
    err? (decode cfgA [0x4F#8, 0x2D#8, 0x2D#8, 0x31#8, 0x2C#8, 0x35#8]) = some .missingSeparator ∧
    err? (decode cfgA [0x4F#8, 0x31#8, 0x2C#8, 0x32#8, 0x2D#8]) = some .missingSeparator ∧
    ok? (decode cfgA [0x4F#8, 0x2C#8]) = some (.textAO 0 Color.dark) ∧
    ok? (decode cfgA [0x4F#8, 0x2D#8, 0x2C#8, 0x35#8]) = some (.textAO 0 ⟨0#8, 0#8, 5#8⟩) ∧
    ok? (decode cfgA [0x4F#8, 0x31#8, 0x2C#8, 0x2D#8]) = some (.textAO 1 Color.dark) ∧
    ok? (decode { cfgA with negPolicy := .clampZero } [0x4F#8, 0x2D#8, 0x31#8, 0x2C#8, 0x2D#8, 0x35#8]) = some (.textAO 0 Color.dark) ∧
    err? (decode { cfgA with emptyInt := .malformed } [0x4F#8]) = some .missingSeparator := by decide
/-- Vectors B2, B23, B25, B26. -/
theorem test_decode_binary_letters : ok? (decode cfgBin [0x47#8]) = some .binaryG ∧ ok? (decode cfgBin [0x4C#8]) = some .binaryL ∧
    ok? (decode cfgBin [0x43#8]) = some .binaryC ∧ ok? (decode cfgBin [0x52#8]) = some .binaryR := by decide
/-- Vector B4. -/
theorem test_decode_binaryO : ok? (decode cfgBin [0x4F#8, 0x0A#8, 0xFF#8, 0x01#8, 0x02#8]) = some (.binaryO 10 ⟨0xFF#8, 1#8, 2#8⟩) := by decide
/-- Vector B10. -/
theorem test_decode_binaryB : ok? (decode cfgBin [0x42#8, 0xFF#8, 1#8, 2#8, 3#8, 4#8, 5#8, 6#8]) =
    some (.binaryB 255 [⟨1#8, 2#8, 3#8⟩, ⟨4#8, 5#8, 6#8⟩]) := by decide
/-- Vector B13. -/
theorem test_decode_binaryA : ok? (decode cfgBin [0x41#8, 0x01#8, 0#8, 0#8, 0#8, 0#8, 0#8, 0#8, 0#8, 0#8, 0x80#8]) =
    some (.binaryA [0x01#8, 0#8, 0#8, 0#8, 0#8, 0#8, 0#8, 0#8, 0#8, 0x80#8]) := by decide
/-- Vectors B17, B22. -/
theorem test_decode_binary_bits : ok? (decode cfgBin [0x30#8, 0x09#8]) = some (.binary0 9) ∧
    ok? (decode cfgBin [0x31#8, 0xFF#8]) = some (.binary1 255) := by decide
/-- Vectors B3, B7, B8, B9, B11, B14, B20, B28. -/
theorem test_decode_binary_malformed :
    err? (decode cfgBin [0x47#8, 0#8]) = some .wrongLength ∧
    err? (decode cfgBin [0x42#8, 0#8, 0xFF#8, 0#8, 0#8, 0#8, 0xFF#8]) = some .wrongLength ∧
    err? (decode cfgBin [0x42#8, 0#8, 0xFF#8, 0#8, 0#8, 0#8]) = some .wrongLength ∧
    err? (decode cfgBin [0x42#8, 0#8]) = some .wrongLength ∧
    err? (decode cfgBin [0x4F#8, 0x0A#8, 0xFF#8, 0#8]) = some .wrongLength ∧
    err? (decode cfgBin [0x41#8, 1#8, 0#8, 0#8, 0#8, 0#8, 0#8, 0#8, 0#8, 0#8]) = some .wrongLength ∧
    err? (decode cfgBin [0x31#8, 9#8, 0#8]) = some .wrongLength ∧
    err? (decode cfgBin [0x53#8]) = some .unknownOpcode ∧ err? (decode cfgBin [0x0A#8]) = some .unknownOpcode := by decide
/-- 30_encoding.md R84: the kinds of the decoded Command. -/
theorem test_decodeCommand : decodeCommand cfgA [0x47#8] = .getState ∧ decodeCommand cfgBin [0x31#8, 9#8] = .setArrayBit 9 true ∧
    decodeCommand cfgBin [] = .malformed .emptyFrame := by decide
/-- Encodings written out from 41_text_commands.md R139, R142 and 42_binary_commands.md R155 to R158. -/
theorem test_encode : encode (.textAO 10 ⟨0xFF#8, 0#8, 0#8⟩) =
      [0x4F#8, 0x31#8, 0x30#8, 0x2C#8, 0x31#8, 0x36#8, 0x37#8, 0x31#8, 0x31#8, 0x36#8, 0x38#8, 0x30#8] ∧
    encode (.textBL 0 Color.dark) = [0x4C#8, 0x30#8, 0x2C#8, 0x30#8] ∧
    encode (.binaryB 0 [⟨255#8, 0#8, 0#8⟩, ⟨0#8, 255#8, 0#8⟩]) = [0x42#8, 0#8, 0xFF#8, 0#8, 0#8, 0#8, 0xFF#8, 0#8] ∧
    encode (.binary0 9) = [0x30#8, 0x09#8] := by decide

/-! ## The opcode table's words (bit 0 of a word is the least significant bit of its first byte) -/

theorem test_table_words : decodeTableWord 8 0x47 = some .binaryG ∧ decodeTableWord 8 0x4C = some .binaryL ∧
    decodeTableWord 8 0x43 = some .binaryC ∧ decodeTableWord 8 0x52 = some .binaryR ∧
    decodeTableWord 8 0x53 = some .textBS ∧ decodeTableWord 8 0x58 = some .textBX ∧
    decodeTableWord 8 0x4F = some (.textAO 0 Color.dark) ∧ decodeTableWord 40 0x030201054F = some (.binaryO 5 ⟨1#8, 2#8, 3#8⟩) ∧
    decodeTableWord 40 0x0302010742 = some (.binaryB 7 [⟨1#8, 2#8, 3#8⟩]) ∧ decodeTableWord 8 0x42 = some (.binaryB 0 [Color.dark]) ∧
    decodeTableWord 16 0x0141 = some (.binaryA [1#8, 0#8, 0#8, 0#8, 0#8, 0#8, 0#8, 0#8, 0#8, 0#8]) ∧
    decodeTableWord 16 0x0930 = some (.binary0 9) ∧ decodeTableWord 16 0x0931 = some (.binary1 9) ∧ decodeTableWord 8 0x51 = none := by
  decide
/-- One step from reset runs the placed Binary word, one runs the placed text word. -/
theorem test_fetch_binary : seen (State.reset.withFetchWord 16 0x0931) = some (1#32, 0#32, [.actToggle, .bitSet 9 true]) := by decide
theorem test_fetch_text : seen (State.reset.withFetchWord 8 0x4F) = some (1#32, 0#32, [.pixSet 0 Color.dark]) := by decide

/-! ## One step per instruction -/

/-- Vector D11, `BOOKKEEP = Before` and `After`. -/
theorem test_binaryG_before : seen (packet (small .binary) [0x47#8]) =
    some (5#32, 2#32, [.actToggle, .outWrite [0x53#8, 0#8, 0#8, 0#8, 5#8, 0#8, 0#8, 0#8, 2#8]]) := by decide
theorem test_binaryG_after : seen (packet { small .binary with bookkeep := .after } [0x47#8]) =
    some (5#32, 2#32, [.actToggle, .outWrite [0x53#8, 0#8, 0#8, 0#8, 4#8, 0#8, 0#8, 0#8, 2#8]]) := by decide
/-- 44_state_reporter.md R192, `C:5;B:2;` CR LF. -/
theorem test_textAG : seen (line (small .textA) [0x47#8]) =
    some (5#32, 2#32, [.outWrite [0x43#8, 0x3A#8, 0x35#8, 0x3B#8, 0x42#8, 0x3A#8, 0x32#8, 0x3B#8, 0x0D#8, 0x0A#8]]) := by decide
/-- R192 with the `L:` field under `After`: now = 7, lastCmd = 2, so `L:5;`. -/
theorem test_textBS_L_field :
    seen { line { small .textB with statusLField := true, bookkeep := .after } [0x53#8] with lastCmd := 2#32 } =
      some (5#32, 2#32, [.outWrite [0x43#8, 0x3A#8, 0x34#8, 0x3B#8, 0x42#8, 0x3A#8, 0x32#8, 0x3B#8, 0x4C#8, 0x3A#8, 0x35#8, 0x3B#8,
        0x0D#8, 0x0A#8]]) := by decide
/-- Vector D10. -/
theorem test_textAG_push : (next? (step (line { small .textA with report := .push } [0x47#8]))).map (fun t => (t.dirty, t.out)) =
    some (true, []) := by decide
/-- Vectors D1, D12. -/
theorem test_binaryL : seen (packet (small .binary) [0x4C#8]) = some (5#32, 2#32, [.actToggle, .pixFlush, .bitCommit]) ∧
    pixels (packet (small .binary) [0x4C#8]) = some (someMem.pixp, someMem.pixp) ∧
    bits (packet (small .binary) [0x4C#8]) = some (someMem.bitp, someMem.bitp) := by decide
/-- P1, row `L`: no bit sink. -/
theorem test_textAL : seen (line { small .textA with hasBitarray := false } [0x4C#8]) = some (5#32, 2#32, [.pixFlush]) := by decide
/-- Vector D3. -/
theorem test_binaryC : pixels (packet (small .binary) [0x43#8]) = some (List.replicate 3 Color.dark, List.replicate 3 Color.dark) := by decide
theorem test_textAC : seen (line (small .textA) [0x43#8]) =
    some (5#32, 2#32, [.pixSet 0 Color.dark, .pixSet 1 Color.dark, .pixSet 2 Color.dark, .pixFlush]) := by decide
theorem test_textBX : seen (line (small .textB) [0x58#8]) =
    some (5#32, 2#32, [.pixSet 0 Color.dark, .pixSet 1 Color.dark, .pixSet 2 Color.dark, .pixFlush]) := by decide
/-- Vector D2: `O1,255` changes the pending pixel only. -/
theorem test_textAO : pixels (line (small .textA) [0x4F#8, 0x31#8, 0x2C#8, 0x32#8, 0x35#8, 0x35#8]) =
    some ([⟨1#8, 2#8, 3#8⟩, ⟨0#8, 0#8, 255#8⟩, ⟨7#8, 8#8, 9#8⟩], someMem.pixv) := by decide
/-- Vectors D4 and X4: `AUTO_FLUSH` shows everything pending; an index past the strip is Clamp's last pixel. -/
theorem test_textBL : pixels (line { small .textB with autoFlush := true, pixOor := .clamp } [0x4C#8, 0x35#8, 0x2C#8, 0x31#8]) =
    some ([⟨1#8, 2#8, 3#8⟩, ⟨4#8, 5#8, 6#8⟩, ⟨0#8, 0#8, 1#8⟩], [⟨1#8, 2#8, 3#8⟩, ⟨4#8, 5#8, 6#8⟩, ⟨0#8, 0#8, 1#8⟩]) := by decide
/-- Vector B29. -/
theorem test_binaryO_out_of_range : seen (packet (small .binary) [0x4F#8, 0xC8#8, 1#8, 2#8, 3#8]) =
      some (5#32, 2#32, [.actToggle, .pixSet 200 ⟨1#8, 2#8, 3#8⟩]) ∧
    pixels (packet (small .binary) [0x4F#8, 0xC8#8, 1#8, 2#8, 3#8]) = some (someMem.pixp, someMem.pixv) := by decide
/-- Vector B32, scaled to `N = 3`: last wins under Clamp. -/
theorem test_binaryB_clamp : pixels (packet { small .binary with pixOor := .clamp }
      [0x42#8, 2#8, 1#8, 1#8, 1#8, 2#8, 2#8, 2#8, 3#8, 3#8, 3#8]) =
    some ([⟨1#8, 2#8, 3#8⟩, ⟨4#8, 5#8, 6#8⟩, ⟨3#8, 3#8, 3#8⟩], someMem.pixv) := by decide
/-- Vector B10: no wrap at 256. -/
theorem test_binaryB_no_wrap : seen (packet (small .binary) [0x42#8, 0xFF#8, 1#8, 2#8, 3#8, 4#8, 5#8, 6#8]) =
    some (5#32, 2#32, [.actToggle, .pixSet 255 ⟨1#8, 2#8, 3#8⟩, .pixSet 256 ⟨4#8, 5#8, 6#8⟩]) := by decide
/-- Vector D6. -/
theorem test_binaryA : bits (packet (small .binary) [0x41#8, 0x05#8, 0x80#8]) = some ([0x05#8, 0x80#8], someMem.bitv) := by decide
/-- Vectors D7 and D8's mirror: bit 4 of `F0` cleared is `E0`. -/
theorem test_binary1 : bits (packet (small .binary) [0x31#8, 0x09#8]) = some ([0xF0#8, 0x02#8], someMem.bitv) := by decide
theorem test_binary0 : bits (packet (small .binary) [0x30#8, 0x04#8]) = some ([0xE0#8, 0x00#8], someMem.bitv) := by decide
/-- Vector B21 with `Clamp`: bit `M-1`. -/
theorem test_binary1_clamp : bits (packet { small .binary with bitOor := .clamp } [0x31#8, 0x50#8]) =
    some ([0xF0#8, 0x80#8], someMem.bitv) := by decide
/-- Vectors B26, D13. -/
theorem test_binaryR : (next? (step (packet (small .binary) [0x52#8]))).map (fun t => (t.halted, t.out, t.mem)) =
    some (true, [.actToggle, .restartReq], someMem) := by decide
/-- P4: under `After` the call does not return, the frame is not counted (log entry 10). -/
theorem test_binaryR_after : seen (packet { small .binary with bookkeep := .after } [0x52#8]) =
    some (4#32, 2#32, [.actToggle, .restartReq]) := by decide

/-! ## Events that are no instruction -/

/-- Vector FR2 and B1: an empty frame is counted bad. -/
theorem test_malformed : seen (line (small .textA) []) = some (4#32, 3#32, []) ∧
    seen (packet (small .binary) []) = some (4#32, 3#32, [.actToggle]) := by decide
/-- Vectors FR4, FR8: at capacity the line is bad although it is `L` and more; the reader is cleared. -/
theorem test_overflow : (next? (step { line (small .textA) (List.replicate 20 0x4C#8) with ovf := true })).map
    (fun t => (t.cur, t.ovf, t.badRx)) = some (0, false, 3#32) := by decide
/-- Vectors FR9, FR10: the twentieth byte sets `ovf`, the next one is discarded. -/
theorem test_data_byte :
    (next? (step { line (small .textA) (List.replicate 19 0x47#8) with inputs := [.rxByte 0x48#8 7#32] })).map
      (fun t => (t.cur, t.ovf, t.mem.fb[19]?)) = some (20, true, some 0x48#8) ∧
    (next? (step { line (small .textA) (List.replicate 20 0x47#8) with inputs := [.rxByte 0x48#8 7#32], ovf := true })).map
      (fun t => (t.cur, t.ovf, t.mem.fb)) = some (20, true, List.replicate 20 0x47#8) := by decide
/-- Vector RP8: the clamp of a `lastSent` in the future, then the emission. -/
theorem test_tick : (next? (step { st { small .textA with report := .push } [.tick 0x10#32] with lastSent := 0xFFFFFF00#32 })).map
      (fun t => (t.lastSent, t.out)) = some (0x10#32, []) ∧
    (next? (step { st { small .binary with report := .push } [.tick 0x74#32] with lastSent := 0x10#32 })).map
      (fun t => (t.lastSent, t.out)) = some (0x74#32, [.outWrite [0x53#8, 0#8, 0#8, 0#8, 4#8, 0#8, 0#8, 0#8, 2#8]]) := by decide
/-- Vectors RP4 and RP5: the text line with the `L:` field, the clamp of `lastCmd`. -/
theorem test_status_L_clamp :
    (next? (step { st { small .textA with report := .push, statusLField := true, stateSendMs := 0#32 } [.tick 5#32] with
      lastCmd := 0xFFFFFFF0#32, cmdRx := 12#32, badRx := 3#32 })).map (fun t => (t.lastCmd, t.outbox)) =
    some (5#32, [0x43#8, 0x3A#8, 0x31#8, 0x32#8, 0x3B#8, 0x42#8, 0x3A#8, 0x33#8, 0x3B#8, 0x4C#8, 0x3A#8, 0x30#8, 0x3B#8, 0x0D#8, 0x0A#8]) := by
  decide
/-- P4: halted ignores the packet; `ExtReset` revives. -/
theorem test_halted : seen { packet (small .binary) [0x47#8] with halted := true } = some (4#32, 2#32, []) ∧
    (next? (step { st (small .binary) [.extReset] with halted := true })).map (fun t => (t.halted, t.cmdRx, t.badRx, t.act)) =
      some (false, 0#32, 0#32, false) := by decide
/-- 00_scope.md R7: events that are not admitted; 10_state.md R30: the full counter. -/
theorem test_stops : next? (step (packet (small .textA) [0x47#8])) = none ∧ next? (step (st (small .binary) [.rxByte 0x47#8 0#32])) = none ∧
    next? (step { packet (small .binary) [0x47#8] with cmdRx := 0xFFFFFFFF#32 }) = none := by decide

/-! ## Witnesses: for every obligation with hypotheses, concrete values that meet all of them together; one for each clause. -/

theorem witness_DecodeEncodeRoundTrip : Instr.wf cfgB (.textBL 255 ⟨255#8, 255#8, 255#8⟩) = true ∧
    Instr.wf cfgBin (.binaryB 255 [Color.dark]) = true := by decide

theorem witness_BinaryPacketIsItsEncoding : ∃ (c : Config) (p : List Byte) (i : Instr), c.proto = .binary ∧ decode c p = .ok i :=
  ⟨cfgBin, [0x31#8, 0xFF#8], .binary1 255, rfl, rfl⟩

theorem witness_DecodedInstrIsWellFormed : ∃ (c : Config) (f : List Byte) (i : Instr), decode c f = .ok i :=
  ⟨cfgA, [0x4F#8, 0x31#8, 0x2C#8, 0x32#8], .textAO 1 ⟨0#8, 0#8, 2#8⟩, rfl⟩

theorem witness_IllegalFirstByteIsMalformed :
    (∃ (c : Config) (op : Byte), c.proto = .textA ∧ op ≠ 0x47#8 ∧ op ≠ 0x4C#8 ∧ (c.hasPixels = true → op ≠ 0x43#8 ∧ op ≠ 0x4F#8)) ∧
    (∃ (c : Config) (op : Byte), c.proto = .textB ∧ op ≠ 0x53#8 ∧ (c.hasPixels = true → op ≠ 0x58#8 ∧ op ≠ 0x4C#8)) ∧
    (∃ (c : Config) (op : Byte), c.proto = .binary ∧ op ≠ 0x47#8 ∧ op ≠ 0x4C#8 ∧ op ≠ 0x52#8 ∧
      (c.hasPixels = true → op ≠ 0x43#8 ∧ op ≠ 0x4F#8 ∧ op ≠ 0x42#8) ∧
      (c.hasBitarray = true → op ≠ 0x41#8 ∧ op ≠ 0x30#8 ∧ op ≠ 0x31#8)) :=
  ⟨⟨{ cfgA with hasPixels := false }, 0x4F#8, by decide⟩, ⟨cfgB, 0x47#8, by decide⟩,
    ⟨{ cfgBin with hasBitarray := false }, 0x41#8, by decide⟩⟩

/-- The five shapes of the size law, at their exact sizes and one byte off. -/
theorem witness_BinarySizeLaw :
    (∃ payload : List Byte, 1 + payload.length = 1) ∧ (∃ payload : List Byte, ¬1 + payload.length = 1) ∧
    (∃ payload : List Byte, cfgBin.proto = .binary ∧ cfgBin.hasPixels = true ∧ 1 + payload.length = 5) ∧
    (∃ payload : List Byte, ¬1 + payload.length = 5) ∧
    (∃ payload : List Byte, 5 ≤ 1 + payload.length ∧ (1 + payload.length - 2) % 3 = 0) ∧
    (∃ payload : List Byte, ¬(5 ≤ 1 + payload.length ∧ (1 + payload.length - 2) % 3 = 0)) ∧
    (∃ payload : List Byte, cfgBin.hasBitarray = true ∧ 1 + payload.length = 1 + cfgBin.m / 8) ∧
    (∃ payload : List Byte, ¬1 + payload.length = 1 + cfgBin.m / 8) ∧
    (∃ payload : List Byte, 1 + payload.length = 2) :=
  ⟨⟨[], by decide⟩, ⟨[0#8], by decide⟩, ⟨List.replicate 4 0#8, by decide⟩, ⟨List.replicate 3 0#8, by decide⟩,
    ⟨List.replicate 4 0#8, by decide⟩, ⟨List.replicate 5 0#8, by decide⟩, ⟨List.replicate 10 0#8, by decide⟩,
    ⟨List.replicate 9 0#8, by decide⟩, ⟨[0#8], by decide⟩⟩

theorem witness_BinarySizeLaw_premises : ∃ (c : Config) (op : Byte) (payload : List Byte) (goodSize : Prop), c.proto = .binary ∧
    ((op = 0x47#8 ∨ op = 0x4C#8 ∨ op = 0x52#8 ∨ (op = 0x43#8 ∧ c.hasPixels = true)) ∧ (goodSize ↔ 1 + payload.length = 1) ∨
      op = 0x4F#8 ∧ c.hasPixels = true ∧ (goodSize ↔ 1 + payload.length = 5) ∨
      op = 0x42#8 ∧ c.hasPixels = true ∧ (goodSize ↔ 5 ≤ 1 + payload.length ∧ (1 + payload.length - 2) % 3 = 0) ∨
      op = 0x41#8 ∧ c.hasBitarray = true ∧ (goodSize ↔ 1 + payload.length = 1 + c.m / 8) ∨
      (op = 0x30#8 ∨ op = 0x31#8) ∧ c.hasBitarray = true ∧ (goodSize ↔ 1 + payload.length = 2)) ∧ goodSize :=
  ⟨cfgBin, 0x41#8, List.replicate 10 0#8, _, rfl, .inr (.inr (.inr (.inl ⟨rfl, rfl, Iff.rfl⟩))), rfl⟩

/-- `255,16777215` is in range, `256` is not. -/
theorem witness_TextSetPixelReadsDecimals :
    (∃ (c : Config) (op : Byte) (mk : Nat → Color → Instr) (d1 d2 : List Byte),
      (c.proto = .textA ∧ op = 0x4F#8 ∧ mk = Instr.textAO ∨ c.proto = .textB ∧ op = 0x4C#8 ∧ mk = Instr.textBL) ∧ c.hasPixels = true ∧
      allDigits d1 ∧ allDigits d2 ∧ d1 ≠ [] ∧ d2 ≠ [] ∧ digitsValue d1 = 255 ∧ digitsValue d2 = 16777215) ∧
    (∃ d1 : List Byte, allDigits d1 ∧ d1 ≠ [] ∧ digitsValue d1 = 256) :=
  ⟨⟨cfgB, 0x4C#8, Instr.textBL, [0x32#8, 0x35#8, 0x35#8], [0x31#8, 0x36#8, 0x37#8, 0x37#8, 0x37#8, 0x32#8, 0x31#8, 0x35#8],
      .inr ⟨rfl, rfl, rfl⟩, rfl, by unfold allDigits; decide, by unfold allDigits; decide, by decide, by decide, by decide, by decide⟩,
    ⟨[0x32#8, 0x35#8, 0x36#8], by unfold allDigits; decide, by decide, by decide⟩⟩

/-- `-0` under Reject, `-1` under ClampZero and under Reject, in either field, the other field signed too; `-0` is a good first field. -/
theorem witness_TextNegativeFields : ∃ (c c' : Config) (op : Byte) (sign1 sign2 d0 d1 : List Byte),
    (c.proto = .textA ∧ op = 0x4F#8 ∨ c.proto = .textB ∧ op = 0x4C#8) ∧ c.hasPixels = true ∧
    (c'.proto = .textA ∧ op = 0x4F#8 ∨ c'.proto = .textB ∧ op = 0x4C#8) ∧ c'.hasPixels = true ∧
    isSign sign1 ∧ isSign sign2 ∧ allDigits d0 ∧ allDigits d1 ∧ d0 ≠ [] ∧ digitsValue d0 = 0 ∧ d1 ≠ [] ∧ digitsValue d1 ≠ 0 ∧
    c.negPolicy = .reject ∧ c'.negPolicy = .clampZero ∧
    (∃ i, decode c (op :: (sign1 ++ d0 ++ [0x2C#8, 0x30#8])) = .ok i) :=
  ⟨cfgA, { cfgA with negPolicy := .clampZero }, 0x4F#8, [0x2D#8], [0x2D#8], [0x30#8], [0x31#8], .inl ⟨rfl, rfl⟩, rfl, .inl ⟨rfl, rfl⟩, rfl,
    by unfold isSign; decide, by unfold isSign; decide, by unfold allDigits; decide, by unfold allDigits; decide,
    by decide, by decide, by decide, by decide, rfl, rfl, ⟨.textAO 0 Color.dark, rfl⟩⟩

/-- An empty field, bare or `-`, beside a signed one, under Zero and under Malformed; `-0` is a good first field under both. -/
theorem witness_TextEmptyFields : ∃ (c c' : Config) (op : Byte) (sign sign1 sign2 d1 d2 : List Byte),
    (c.proto = .textA ∧ op = 0x4F#8 ∨ c.proto = .textB ∧ op = 0x4C#8) ∧ c.hasPixels = true ∧
    (c'.proto = .textA ∧ op = 0x4F#8 ∨ c'.proto = .textB ∧ op = 0x4C#8) ∧ c'.hasPixels = true ∧
    isSign sign ∧ isSign sign1 ∧ isSign sign2 ∧ allDigits d1 ∧ allDigits d2 ∧ c.emptyInt = .zero ∧ c'.emptyInt = .malformed ∧
    (∃ i, decode c' (op :: (sign1 ++ d1 ++ [0x2C#8, 0x30#8])) = .ok i) :=
  ⟨cfgA, { cfgA with emptyInt := .malformed }, 0x4F#8, [], [0x2D#8], [0x2D#8], [0x30#8], [], .inl ⟨rfl, rfl⟩, rfl, .inl ⟨rfl, rfl⟩, rfl,
    by unfold isSign; decide, by unfold isSign; decide, by unfold isSign; decide, by unfold allDigits; decide, by unfold allDigits; decide,
    rfl, rfl, ⟨.textAO 0 Color.dark, rfl⟩⟩

/-- The bytes just below `'0'` and just above `'9'`, the second `,` of a line, and a `-` that is not the scan's sign (one stands before it). -/
theorem witness_TextSeparatorsAreChecked : ∃ (c : Config) (op : Byte) (sign1 sign2 d1 d2 : List Byte),
    (c.proto = .textA ∧ op = 0x4F#8 ∨ c.proto = .textB ∧ op = 0x4C#8) ∧ c.hasPixels = true ∧
    isSign sign1 ∧ isSign sign2 ∧ allDigits d1 ∧ allDigits d2 ∧
    (∀ x ∈ [0x2F#8, 0x3A#8, 0x2D#8], ¬(0x30 ≤ x.toNat ∧ x.toNat ≤ 0x39) ∧ x ≠ (0x0A#8 : Byte) ∧ x ≠ 0x2C#8 ∧
      (sign1 ++ d1 = [] → x ≠ 0x2D#8)) ∧
    (∀ x ∈ [0x2F#8, 0x3A#8, 0x2C#8], ¬(0x30 ≤ x.toNat ∧ x.toNat ≤ 0x39) ∧ x ≠ (0x0A#8 : Byte) ∧ (sign2 ++ d2 = [] → x ≠ 0x2D#8)) :=
  ⟨cfgA, 0x4F#8, [0x2D#8], [], [], [], .inl ⟨rfl, rfl⟩, rfl, by unfold isSign; decide, by unfold isSign; decide,
    by unfold allDigits; decide, by unfold allDigits; decide, by decide, by decide⟩

/-- A first field that fails, a second that fails, and two signed fields that are both good. -/
theorem witness_TextFieldsAreIndependent : ∃ (c : Config) (op : Byte) (mk : Nat → Color → Instr) (sign d0 d1 : List Byte),
    (c.proto = .textA ∧ op = 0x4F#8 ∧ mk = Instr.textAO ∨ c.proto = .textB ∧ op = 0x4C#8 ∧ mk = Instr.textBL) ∧ c.hasPixels = true ∧
    isSign sign ∧ allDigits d0 ∧ allDigits d1 ∧
    decode c (op :: (sign ++ d1 ++ [0x2C#8, 0x30#8])) = .error .negativeField ∧
    decode c (op :: 0x30#8 :: 0x2C#8 :: (sign ++ d1)) = .error .negativeField ∧
    decode c (op :: (sign ++ d0 ++ [0x2C#8, 0x30#8])) = .ok (mk 0 Color.dark) ∧
    decode c (op :: 0x30#8 :: 0x2C#8 :: (sign ++ d0)) = .ok (mk 0 Color.dark) :=
  ⟨cfgB, 0x4C#8, Instr.textBL, [0x2D#8], [0x30#8], [0x31#8], .inr ⟨rfl, rfl, rfl⟩, rfl, by unfold isSign; decide,
    by unfold allDigits; decide, by unfold allDigits; decide, rfl, rfl, rfl, rfl⟩

theorem witness_TextNoOperandTail : ∃ (c : Config) (op : Byte) (i : Instr),
    (c.proto = .textA ∧ (op = 0x47#8 ∧ i = .textAG ∨ op = 0x4C#8 ∧ i = .textAL ∨ op = 0x43#8 ∧ c.hasPixels = true ∧ i = .textAC) ∨
      c.proto = .textB ∧ (op = 0x53#8 ∧ i = .textBS ∨ op = 0x58#8 ∧ c.hasPixels = true ∧ i = .textBX)) :=
  ⟨cfgB, 0x58#8, .textBX, by decide⟩

/-- Both sides of the capacity, under Reject and under Clamp. -/
theorem witness_PixSetWritesOnePixel : ∃ (c : Config) (m : Memory), 1 ≤ c.n ∧ m.pixp.length = c.n ∧ c.pixOor = .clamp ∧ 2 < c.n ∧ c.n ≤ 3 :=
  ⟨{ small .binary with pixOor := .clamp }, someMem, by decide⟩

theorem witness_BitSetWritesOneBit : ∃ (c : Config) (m : Memory), 8 ≤ c.m ∧ c.m % 8 = 0 ∧ m.bitp.length = c.m / 8 ∧ c.bitOor = .clamp ∧
    15 < c.m ∧ c.m ≤ 16 := ⟨{ small .binary with bitOor := .clamp }, someMem, by decide⟩

theorem witness_BitLoadIsBitSetsInOrder : ∃ (c : Config) (bytes : List Byte) (m : Memory),
    c.m % 8 = 0 ∧ bytes.length = c.m / 8 ∧ m.bitp.length = c.m / 8 := ⟨small .binary, [5#8, 0x80#8], someMem, by decide⟩

/-- A counter one below its top still counts. -/
theorem witness_BinaryGetStateReports : ∃ s : State, s.cmdRx = 0xFFFFFFFE#32 ∧ s.cmdRx ≠ 0xFFFFFFFF#32 ∧ s.cfg.proto = .binary ∧
    s.cfg.report = .onDemand := ⟨{ st cfgBin [] with cmdRx := 0xFFFFFFFE#32 }, by decide⟩

theorem witness_TextGetStateReports : ∃ (s : State) (i : Instr), (s.cfg.proto = .textA ∧ i = .textAG ∨ s.cfg.proto = .textB ∧ i = .textBS) ∧
    s.cmdRx ≠ 0xFFFFFFFF#32 ∧ s.cfg.report = .onDemand := ⟨st cfgB [], .textBS, by decide⟩

theorem witness_GetStateMarksDirtyUnderPush : ∃ (s : State) (i : Instr), (i = .textAG ∨ i = .textBS ∨ i = .binaryG) ∧
    s.cmdRx ≠ 0xFFFFFFFF#32 ∧ s.cfg.report = .push := ⟨st { cfgA with report := .push } [], .textAG, by decide⟩

theorem witness_LatchPublishesBothSinks : ∃ (s : State) (i : Instr), (i = .textAL ∨ i = .binaryL) ∧ s.cmdRx ≠ 0xFFFFFFFF#32 :=
  ⟨st cfgBin [], .binaryL, by decide⟩

theorem witness_ClearLedsDarkensEveryPixel : ∃ (s : State) (i : Instr), (i = .textAC ∨ i = .textBX ∨ i = .binaryC) ∧
    s.cmdRx ≠ 0xFFFFFFFF#32 ∧ s.mem.pixp.length = s.cfg.n := ⟨st (small .textB) [], .textBX, by decide⟩

/-- An index inside and one past the strip. -/
theorem witness_SetOneLedWritesItsPixel : ∃ (s : State) (col : Color), s.cmdRx ≠ 0xFFFFFFFF#32 ∧ 2 < s.cfg.n ∧ ¬3 < s.cfg.n ∧
    (Instr.textAO 2 col = .textAO 2 col ∨ Instr.textAO 2 col = .textBL 2 col ∨ Instr.textAO 2 col = .binaryO 2 col) ∧
    (Instr.binaryO 3 col = .textAO 3 col ∨ Instr.binaryO 3 col = .textBL 3 col ∨ Instr.binaryO 3 col = .binaryO 3 col) :=
  ⟨st (small .textA) [], Color.dark, by decide⟩

/-- A run that ends exactly at the strip's end, and one that passes it by one. -/
theorem witness_SetBatchLedsWritesItsRun : ∃ (s : State) (cols : List Color), s.cmdRx ≠ 0xFFFFFFFF#32 ∧ 1 ≤ s.cfg.n ∧
    s.mem.pixp.length = s.cfg.n ∧ cols ≠ [] ∧ 1 + cols.length = s.cfg.n ∧ s.cfg.n < 2 + cols.length ∧ s.cfg.pixOor = .clamp :=
  ⟨st { small .binary with pixOor := .clamp } [], [Color.dark, Color.dark], by decide⟩

theorem witness_SetArrayReplacesBits : ∃ (s : State) (bytes : List Byte), s.cmdRx ≠ 0xFFFFFFFF#32 ∧ bytes.length = s.cfg.m / 8 ∧
    s.mem.bitp.length = s.cfg.m / 8 := ⟨st (small .binary) [], [5#8, 0x80#8], by decide⟩

theorem witness_SetArrayBitChangesOneBit : ∃ (s : State) (i : Instr) (bit : Nat) (v : Bool),
    (i = .binary0 bit ∧ v = false ∨ i = .binary1 bit ∧ v = true) ∧ s.cmdRx ≠ 0xFFFFFFFF#32 ∧ 8 ≤ s.cfg.m ∧ s.cfg.m % 8 = 0 ∧
    s.mem.bitp.length = s.cfg.m / 8 ∧ s.cfg.m ≤ bit ∧ s.cfg.bitOor = .clamp :=
  ⟨st { small .binary with bitOor := .clamp } [], .binary1 16, 16, true, by decide⟩

theorem witness_ResetRequestsRestartAndHalts :
    (∃ s : State, s.cfg.bookkeep = .before ∧ s.cmdRx ≠ 0xFFFFFFFF#32) ∧ (∃ s : State, s.cfg.bookkeep = .after) :=
  ⟨⟨st cfgBin [], by decide⟩, ⟨st { cfgBin with bookkeep := .after } [], by decide⟩⟩

theorem witness_CommandsCompleteBelowCounterTop : (∃ s : State, s.cmdRx ≠ 0xFFFFFFFF#32) ∧
    (∃ (s : State) (i : Instr), s.cmdRx = 0xFFFFFFFF#32 ∧ ¬(i = .binaryR ∧ s.cfg.bookkeep = .after)) :=
  ⟨⟨st cfgBin [], by decide⟩, ⟨{ st cfgBin [] with cmdRx := 0xFFFFFFFF#32 }, .binaryR, by decide⟩⟩

theorem witness_CommandRegisterFrame : ∃ (s t : State) (i : Instr), exec i s = .next t ∧ i ≠ .textAG ∧ i ≠ .textBS ∧ i ≠ .binaryG ∧
    i ≠ .binaryR := ⟨st (small .binary) [], _, .binary1 9, rfl, by decide⟩

theorem witness_NonStoringCommandsMemoryFrame : (∃ s t : State, exec .binaryR s = .next t) ∧ (∃ s t : State, exec .textAL s = .next t) :=
  ⟨⟨st (small .binary) [], _, rfl⟩, ⟨st (small .textA) [], _, rfl⟩⟩

theorem witness_PixelCommandsMemoryFrame :
    (∃ s t : State, exec (.textAO 2 Color.dark) s = .next t ∧ pixTarget s.cfg 2 ≠ some 1 ∧ s.cfg.autoFlush = false) ∧
    (∃ s t : State, exec (.binaryB 1 [Color.dark, Color.dark]) s = .next t ∧ ∀ k, k < 2 → pixTarget s.cfg (1 + k) ≠ some 0) ∧
    (∃ s t : State, exec .textBX s = .next t) :=
  ⟨⟨st (small .textA) [], _, rfl, by decide⟩, ⟨st (small .binary) [], _, rfl, by decide⟩, ⟨st (small .textB) [], _, rfl⟩⟩

theorem witness_BitCommandsMemoryFrame : (∃ s t : State, exec (.binary1 15) s = .next t ∧ bitTarget s.cfg 15 ≠ some 14) ∧
    (∃ s t : State, exec (.binaryA [1#8, 2#8]) s = .next t) :=
  ⟨⟨st (small .binary) [], _, rfl, by decide⟩, ⟨st (small .binary) [], _, rfl⟩⟩

/-- A packet of exactly `PKT_MAX` bytes. -/
theorem witness_PacketStepRunsDecodedInstr : ∃ (s : State) (p : List Byte) (now : Word32) (rest : List Event) (i : Instr),
    s.cfg.wf = true ∧ s.cfg.proto = .binary ∧ s.halted = false ∧ s.inputs = .packet p now :: rest ∧ p.length ≤ s.cfg.pktMax ∧
    decode s.cfg p = .ok i :=
  ⟨st { small .binary with pktMax := 5 } [.packet [0x4F#8, 1#8, 2#8, 3#8, 4#8] 7#32], [0x4F#8, 1#8, 2#8, 3#8, 4#8], 7#32, [],
    .binaryO 1 ⟨2#8, 3#8, 4#8⟩, by decide, rfl, rfl, rfl, by decide, rfl⟩

theorem witness_TerminatorStepRunsDecodedInstr : ∃ (s : State) (now : Word32) (rest : List Event) (i : Instr),
    s.cfg.wf = true ∧ s.cfg.proto ≠ .binary ∧ s.halted = false ∧ s.inputs = .rxByte 0x0A#8 now :: rest ∧ s.ovf = false ∧
    decode s.cfg (s.mem.fb.take s.cur) = .ok i :=
  ⟨line (small .textA) [0x47#8], 7#32, [], .textAG, by decide, by decide, rfl, rfl, rfl, rfl⟩

/-- The cursor one below capacity, and at it. -/
theorem witness_DataByteIsStoredOrDiscarded : ∃ (s s' : State) (b : Byte) (now : Word32) (rest : List Event),
    s.cfg.wf = true ∧ s.cfg.proto ≠ .binary ∧ s.halted = false ∧ s.inputs = .rxByte b now :: rest ∧ b ≠ 0x0A#8 ∧
    s.cur + 1 = s.cfg.cap ∧ s.cur < s.cfg.cap ∧
    s'.cfg.wf = true ∧ s'.cfg.proto ≠ .binary ∧ s'.halted = false ∧ s'.inputs = .rxByte b now :: rest ∧ ¬s'.cur < s'.cfg.cap :=
  ⟨{ st (small .textA) [.rxByte 0x47#8 1#32] with cur := 19 }, { st (small .textA) [.rxByte 0x47#8 1#32] with cur := 20, ovf := true },
    0x47#8, 1#32, [], by decide, by decide, rfl, rfl, by decide, by decide, by decide, by decide, by decide, rfl, rfl, by decide⟩

theorem witness_MalformedPacketIsCounted : ∃ (s : State) (p : List Byte) (now : Word32) (rest : List Event) (e : MalformedCause),
    s.cfg.wf = true ∧ s.cfg.proto = .binary ∧ s.halted = false ∧ s.inputs = .packet p now :: rest ∧ p.length ≤ s.cfg.pktMax ∧
    decode s.cfg p = .error e ∧ s.badRx ≠ 0xFFFFFFFF#32 :=
  ⟨packet (small .binary) [0x42#8, 0#8, 0xFF#8], [0x42#8, 0#8, 0xFF#8], 7#32, [], .wrongLength, by decide, rfl, rfl, rfl, by decide, rfl,
    by decide⟩

theorem witness_MalformedPacketIsCounted_top : ∃ (s : State) (p : List Byte) (now : Word32) (rest : List Event) (e : MalformedCause),
    s.cfg.wf = true ∧ s.cfg.proto = .binary ∧ s.halted = false ∧ s.inputs = .packet p now :: rest ∧ p.length ≤ s.cfg.pktMax ∧
    decode s.cfg p = .error e ∧ s.badRx = 0xFFFFFFFF#32 :=
  ⟨{ packet (small .binary) [] with badRx := 0xFFFFFFFF#32 }, [], 7#32, [], .emptyFrame, by decide, rfl, rfl, rfl, by decide, rfl, rfl⟩

/-- An overflowed line, an empty one, and an empty one at the top of the counter. -/
theorem witness_MalformedLineIsCounted :
    (∃ (s : State) (now : Word32) (rest : List Event), s.cfg.wf = true ∧ s.cfg.proto ≠ .binary ∧ s.halted = false ∧
      s.inputs = .rxByte 0x0A#8 now :: rest ∧ s.ovf = true ∧ s.badRx ≠ 0xFFFFFFFF#32) ∧
    (∃ (s : State) (now : Word32) (rest : List Event), s.cfg.wf = true ∧ s.cfg.proto ≠ .binary ∧ s.halted = false ∧
      s.inputs = .rxByte 0x0A#8 now :: rest ∧ (∃ e, decode s.cfg (s.mem.fb.take s.cur) = .error e) ∧ s.badRx ≠ 0xFFFFFFFF#32) ∧
    (∃ (s : State) (now : Word32) (rest : List Event), s.cfg.wf = true ∧ s.cfg.proto ≠ .binary ∧ s.halted = false ∧
      s.inputs = .rxByte 0x0A#8 now :: rest ∧ (∃ e, decode s.cfg (s.mem.fb.take s.cur) = .error e) ∧ s.badRx = 0xFFFFFFFF#32) :=
  ⟨⟨{ line (small .textA) (List.replicate 20 0x78#8) with ovf := true }, 7#32, [], by decide, by decide, rfl, rfl, rfl, by decide⟩,
    ⟨line (small .textB) [], 7#32, [], by decide, by decide, rfl, rfl, ⟨_, rfl⟩, by decide⟩,
    ⟨{ line (small .textB) [] with badRx := 0xFFFFFFFF#32 }, 7#32, [], by decide, by decide, rfl, rfl, ⟨_, rfl⟩, rfl⟩⟩

/-- Exactly `STATE_SEND_MS` have passed; one less; the state not dirty where that is required. -/
theorem witness_PushTickGate : ∃ (s s' s'' : State) (now : Word32) (rest : List Event),
    (s.cfg.wf = true ∧ s.cfg.report = .push ∧ s.halted = false ∧ s.inputs = .tick now :: rest ∧
      s.cfg.stateSendMs.toNat = now.toNat - s.lastSent.toNat ∧ (s.cfg.pushRequiresDirty = true → s.dirty = true)) ∧
    (s'.cfg.wf = true ∧ s'.cfg.report = .push ∧ s'.halted = false ∧ s'.inputs = .tick now :: rest ∧
      ¬(s'.cfg.stateSendMs.toNat ≤ now.toNat - s'.lastSent.toNat)) ∧
    (s''.cfg.wf = true ∧ s''.cfg.report = .push ∧ s''.halted = false ∧ s''.inputs = .tick now :: rest ∧
      ¬(s''.cfg.pushRequiresDirty = true → s''.dirty = true)) :=
  ⟨{ st { small .textA with report := .push } [.tick 150#32] with lastSent := 50#32 },
    { st { small .textA with report := .push } [.tick 150#32] with lastSent := 51#32 },
    st { small .textA with report := .push, pushRequiresDirty := true } [.tick 150#32], 150#32, [], by decide, by decide, by decide⟩

theorem witness_OnDemandTickAndIdleChangeNothing : (∃ s : State, s.cfg.wf = true ∧ s.inputs = []) ∧
    (∃ (s : State) (now : Word32) (rest : List Event), s.cfg.wf = true ∧ s.cfg.report = .onDemand ∧ s.halted = false ∧
      s.inputs = .tick now :: rest) :=
  ⟨⟨st (small .textA) [], by decide⟩, ⟨st (small .textA) [.tick 1000#32], 1000#32, [], by decide⟩⟩

theorem witness_ExtResetRestoresResetState : ∃ (s : State) (rest : List Event), s.cfg.wf = true ∧ s.inputs = .extReset :: rest ∧
    s.halted = true := ⟨{ st (small .binary) [.extReset] with halted := true }, [], by decide⟩

theorem witness_HaltedIgnoresEvent : ∃ (s : State) (e : Event) (rest : List Event), s.cfg.wf = true ∧ s.halted = true ∧
    s.inputs = e :: rest ∧ e ≠ .extReset := ⟨{ st (small .binary) [.tick 9#32] with halted := true }, .tick 9#32, [], by decide⟩

/-- Each of the four stops; the packet is one byte too long. -/
theorem witness_EventsOutsideTheInterfaceStop :
    (∃ s : State, s.cfg.wf = false) ∧
    (∃ (s : State) (b : Byte) (now : Word32) (rest : List Event),
      s.cfg.wf = true ∧ s.halted = false ∧ s.cfg.proto = .binary ∧ s.inputs = .rxByte b now :: rest) ∧
    (∃ (s : State) (p : List Byte) (now : Word32) (rest : List Event),
      s.cfg.wf = true ∧ s.halted = false ∧ s.cfg.proto ≠ .binary ∧ s.inputs = .packet p now :: rest) ∧
    (∃ (s : State) (p : List Byte) (now : Word32) (rest : List Event),
      s.cfg.wf = true ∧ s.halted = false ∧ s.cfg.proto = .binary ∧ s.cfg.pktMax < p.length ∧ s.inputs = .packet p now :: rest) :=
  ⟨⟨st { small .binary with m := 12 } [], by decide⟩, ⟨st (small .binary) [.rxByte 0x47#8 0#32], 0x47#8, 0#32, [], by decide⟩,
    ⟨packet (small .textA) [0x47#8], [0x47#8], 7#32, [], by decide⟩,
    ⟨packet { small .binary with pktMax := 5 } (List.replicate 6 0x42#8), List.replicate 6 0x42#8, 7#32, [], by decide⟩⟩

/-- An admitted configuration; a state that meets the invariant and has a next one, in Binary and in text at a full frame buffer. -/
theorem witness_ResetEstablishesInvariant : Config.wf (small .textB) = true := by decide

theorem witness_StepKeepsInvariant : (∃ s t : State, s.Inv ∧ step s = .next t) ∧
    (∃ s t : State, s.Inv ∧ step s = .next t ∧ s.cur = s.cfg.cap) :=
  ⟨⟨packet (small .binary) [0x31#8, 0x09#8], _, by unfold State.Inv State.absentFieldsAtReset Memory.wf; decide, rfl⟩,
    ⟨{ line (small .textA) (List.replicate 20 0x78#8) with ovf := true }, _,
      by unfold State.Inv State.absentFieldsAtReset Memory.wf; decide, rfl, rfl⟩⟩

theorem witness_StepKeepsConfigAndAppendsOutput : ∃ s t : State, step s = .next t := ⟨packet (small .binary) [0x43#8], _, rfl⟩

theorem witness_SinksReplayIssuedOperations : ∃ s t : State, step s = .next t ∧ s.inputs.head? ≠ some .extReset :=
  ⟨packet (small .binary) [0x42#8, 2#8, 1#8, 1#8, 1#8, 2#8, 2#8, 2#8], _, rfl, by decide⟩

theorem witness_VisibleChangesOnlyByFlushOrCommit : ∃ s t : State, step s = .next t ∧ s.inputs.head? ≠ some .extReset ∧
    OutOp.pixFlush ∉ issued s t ∧ OutOp.bitCommit ∉ issued s t := ⟨packet (small .binary) [0x31#8, 0x09#8], _, rfl, by decide⟩

theorem witness_OneSinkCategoryPerStep : ∃ (s t : State) (a b : OutOp), step s = .next t ∧ a ∈ issued s t ∧ b ∈ issued s t ∧
    a.isPixelMutation = true := ⟨packet (small .binary) [0x43#8], _, .pixSet 0 Color.dark, .pixFlush, rfl, by decide⟩

theorem witness_ActivityToggleOncePerPacket :
    (∃ (s t : State) (p : List Byte) (now : Word32), step s = .next t ∧ s.halted = false ∧ s.inputs.head? = some (.packet p now)) ∧
    (∃ s t : State, step s = .next t ∧ s.halted = false ∧ (∀ p now, s.inputs.head? ≠ some (.packet p now)) ∧
      s.inputs.head? ≠ some .extReset) :=
  ⟨⟨packet (small .binary) [0x47#8], _, _, _, rfl, rfl, rfl⟩,
    ⟨line (small .textA) [0x47#8], _, rfl, rfl, (fun _ _ h => by simp [line, st] at h), by decide⟩⟩

theorem witness_ExactlyOneCounterPerFrame :
    (∃ (s t : State) (e : Event) (rest : List Event), step s = .next t ∧ s.inputs = e :: rest ∧ e ≠ .extReset ∧ s.halted = false ∧
      t.halted = false ∧ e.finalizes = true) ∧
    (∃ (s t : State) (e : Event) (rest : List Event), step s = .next t ∧ s.inputs = e :: rest ∧ e ≠ .extReset ∧ s.halted = false ∧
      t.halted = false ∧ e.finalizes = false) :=
  ⟨⟨packet (small .binary) [0x47#8], _, _, _, rfl, rfl, by decide, rfl, rfl, rfl⟩,
    ⟨st (small .textA) [.rxByte 0x0B#8 0#32], _, _, _, rfl, rfl, by decide, rfl, rfl, rfl⟩⟩

theorem witness_OnlyResetHaltsOnlyExtResetRevives :
    (∃ s t : State, step s = .next t ∧ s.halted = false ∧ t.halted = true) ∧
    (∃ s t : State, step s = .next t ∧ s.halted = true ∧ t.halted = false) :=
  ⟨⟨packet (small .binary) [0x52#8], _, rfl, rfl, rfl⟩, ⟨{ st (small .binary) [.extReset] with halted := true }, _, rfl, rfl, rfl⟩⟩

/-- Counters that the last terminator brings to their top. -/
theorem witness_EveryTerminatorIsOneFrame : ∃ (s : State) (bytes : List (Byte × Word32)),
    s.Inv ∧ s.cfg.proto ≠ .binary ∧ s.inputs = byteEvents bytes ∧ terminators bytes = 2 ∧
    s.cmdRx.toNat + terminators bytes < 2 ^ 32 ∧ s.badRx.toNat + terminators bytes < 2 ^ 32 :=
  ⟨{ st (small .textA) (byteEvents [(0x47#8, 0#32), (0x0A#8, 1#32), (0x0A#8, 2#32)]) with badRx := 0xFFFFFFFD#32 },
    [(0x47#8, 0#32), (0x0A#8, 1#32), (0x0A#8, 2#32)], by unfold State.Inv State.absentFieldsAtReset Memory.wf; decide, by decide, rfl,
    by decide, by decide, by decide⟩

/-- A line one byte short of capacity that is good, one that is bad, and a line at capacity. -/
theorem witness_FedLineIsOneFrame : ∃ (s : State) (good bad long : List Byte), s.Inv ∧ s.cfg.proto ≠ .binary ∧ s.cur = 0 ∧
    s.badRx ≠ 0xFFFFFFFF#32 ∧ s.inputs = byteEvents (good.map fun b => (b, 0#32)) ++ .rxByte 0x0A#8 0#32 :: [] ∧
    (∀ x ∈ good ++ bad ++ long, x ≠ 0x0A#8) ∧
    good.length + 1 = s.cfg.cap ∧ ok? (decode s.cfg good) = some .textAL ∧
    bad.length + 1 = s.cfg.cap ∧ err? (decode s.cfg bad) = some .unknownOpcode ∧ s.cfg.cap ≤ long.length :=
  ⟨st (small .textA) (byteEvents ((List.replicate 19 0x4C#8).map fun b => (b, 0#32)) ++ .rxByte 0x0A#8 0#32 :: []),
    List.replicate 19 0x4C#8, List.replicate 19 0x78#8, List.replicate 20 0x4C#8,
    by unfold State.Inv State.absentFieldsAtReset Memory.wf; decide, by decide, rfl, by decide, rfl, by decide, by decide, by decide,
    by decide, by decide, by decide⟩

theorem witness_ArrivingFrameExecutesItsInstr :
    (∃ (s : State) (i : Instr) (frame : List (Byte × Word32)) (now : Word32) (rest : List Event), s.Inv ∧ s.halted = false ∧
      i.wf s.cfg = true ∧ frame.map (fun x => x.1) = encode i ∧ s.cfg.proto ≠ .binary ∧ s.cur = 0 ∧ frame.length < s.cfg.cap ∧
      s.inputs = byteEvents frame ++ .rxByte 0x0A#8 now :: rest) ∧
    (∃ (s : State) (i : Instr) (frame : List (Byte × Word32)) (now : Word32) (rest : List Event), s.Inv ∧ s.halted = false ∧
      i.wf s.cfg = true ∧ frame.map (fun x => x.1) = encode i ∧ s.cfg.proto = .binary ∧ frame.length ≤ s.cfg.pktMax ∧
      s.inputs = .packet (encode i) now :: rest) :=
  ⟨⟨st (small .textB) (byteEvents [(0x4C#8, 0#32), (0x32#8, 0#32), (0x2C#8, 0#32), (0x39#8, 0#32)] ++ .rxByte 0x0A#8 0#32 :: []),
      .textBL 2 ⟨0#8, 0#8, 9#8⟩, [(0x4C#8, 0#32), (0x32#8, 0#32), (0x2C#8, 0#32), (0x39#8, 0#32)], 0#32, [],
      by unfold State.Inv State.absentFieldsAtReset Memory.wf; decide, rfl, by decide, by decide, by decide, rfl, by decide, rfl⟩,
    ⟨packet (small .binary) [0x31#8, 0x09#8], .binary1 9, [(0x31#8, 0#32), (0x09#8, 0#32)], 7#32, [],
      by unfold State.Inv State.absentFieldsAtReset Memory.wf; decide, rfl, by decide, by decide, rfl, by decide, rfl⟩⟩

theorem witness_HaltedUntilExtReset : ∃ (s : State) (es rest : List Event), s.cfg.wf = true ∧ s.halted = true ∧ (∀ e ∈ es, e ≠ .extReset) ∧
    s.inputs = es ++ .extReset :: rest :=
  ⟨{ st (small .binary) [.tick 9#32, .packet [0x47#8] 9#32, .extReset] with halted := true }, [.tick 9#32, .packet [0x47#8] 9#32], [],
    by decide⟩

theorem witness_ClearLedsTwiceIsOnce : ∃ (s : State) (i j : Instr), (i = .textAC ∨ i = .textBX ∨ i = .binaryC) ∧
    (j = .textAC ∨ j = .textBX ∨ j = .binaryC) ∧ s.cmdRx.toNat + 2 < 2 ^ 32 ∧ s.mem.pixp.length = s.cfg.n :=
  ⟨{ st (small .binary) [] with cmdRx := 0xFFFFFFFD#32 }, .binaryC, .binaryC, by decide⟩

theorem witness_StatusFrames : ∃ s s' : State, s.cfg.proto = .binary ∧ s'.cfg.proto ≠ .binary :=
  ⟨st cfgBin [], st cfgA [], by decide⟩

/-- Vector RP6: the longest counters; vectors RP1, RP2: the packet's bytes. -/
theorem test_status_frames :
    statusFrame { st cfgA [] with cmdRx := 0xFFFFFFFF#32, badRx := 0xFFFFFFFF#32 } =
      [0x43#8, 0x3A#8, 0x34#8, 0x32#8, 0x39#8, 0x34#8, 0x39#8, 0x36#8, 0x37#8, 0x32#8, 0x39#8, 0x35#8, 0x3B#8,
        0x42#8, 0x3A#8, 0x34#8, 0x32#8, 0x39#8, 0x34#8, 0x39#8, 0x36#8, 0x37#8, 0x32#8, 0x39#8, 0x35#8, 0x3B#8, 0x0D#8, 0x0A#8] ∧
    statusFrame { st cfgBin [] with cmdRx := 0x01020304#32, badRx := 5#32 } = [0x53#8, 1#8, 2#8, 3#8, 4#8, 0#8, 0#8, 0#8, 5#8] := by
  decide

end Sys2Proof.Tests
end

section
/-! PROOFS. The decimal spelling `dec` (00_scope.md R12): its two equations, freed of the fuel, and what follows from them by induction on
the number divided by ten. -/

namespace Sys2Proof

/-- The digits do not depend on the fuel, once it bounds their number. -/
theorem decDigits_fuel {f g v : Nat} (hf : v < 2 ^ f) (hg : v < 2 ^ g) (hv : 0 < v) : decDigits f v = decDigits g v := by
  induction f generalizing g v with
  | zero => simp at hf; omega
  | succ f ih =>
    cases g with
    | zero => simp at hg; omega
    | succ g =>
      rw [decDigits, decDigits]
      split
      · rfl
      · rw [Nat.pow_succ] at hf hg
        rw [ih (g := g) (by omega) (by omega) (by omega)]

theorem dec_of_lt_ten {v : Nat} (h : v < 10) : dec v = [digitByte v] := by simp [dec, decDigits, h]

/-- A number of two digits or more is spelled by the spelling of its tenth and its last digit. -/
theorem dec_of_ten_le {v : Nat} (h : 10 ≤ v) : dec v = dec (v / 10) ++ [digitByte (v % 10)] := by
  have hv : v < 2 ^ (v.log2 + 1) := Nat.lt_log2_self
  rw [Nat.pow_succ] at hv
  rw [dec, decDigits, if_neg (by omega), dec,
    decDigits_fuel (f := v.log2) (by omega) (Nat.lt_log2_self (n := v / 10)) (by omega)]

/-- Induction along the decimal digits of a number. -/
theorem digits_induction {P : Nat → Prop} (one : ∀ v, v < 10 → P v) (more : ∀ v, 10 ≤ v → P (v / 10) → P v) (v : Nat) : P v := by
  induction v using Nat.strongRecOn with
  | ind v ih =>
    by_cases h : v < 10
    · exact one v h
    · exact more v (by omega) (ih (v / 10) (by omega))

theorem digitByte_isDigit {d : Nat} (h : d < 10) : 0x30 ≤ (digitByte d).toNat ∧ (digitByte d).toNat ≤ 0x39 := by
  rw [digitByte_toNat h]
  omega

theorem dec_allDigits (v : Nat) : allDigits (dec v) := by
  induction v using digits_induction with
  | one v h => simpa [dec_of_lt_ten h, allDigits] using digitByte_isDigit h
  | more v h ih =>
    intro d hd
    rw [dec_of_ten_le h, List.mem_append, List.mem_singleton] at hd
    obtain hd | rfl := hd
    · exact ih d hd
    · exact digitByte_isDigit (Nat.mod_lt v (by decide))

theorem digitsValue_dec (v : Nat) : digitsValue (dec v) = v := by
  induction v using digits_induction with
  | one v h => simp [dec_of_lt_ten h, digitsValue, digitByte_toNat h]
  | more v h ih =>
    rw [dec_of_ten_le h, digitsValue_append, ih, digitByte_toNat (Nat.mod_lt v (by decide))]
    omega

theorem dec_ne_nil (v : Nat) : dec v ≠ [] := by
  obtain h | h := Nat.lt_or_ge v 10
  · simp [dec_of_lt_ten h]
  · simp [dec_of_ten_le h]

/-- The leading digit of a nonzero number is not `'0'`: it is that of its tenth, down to a single digit. -/
theorem dec_head_ne_zero {v : Nat} (hv : v ≠ 0) : (dec v).head? ≠ some 0x30#8 := by
  induction v using digits_induction with
  | one v h =>
    rw [dec_of_lt_ten h, List.head?_singleton, ne_eq, Option.some.injEq]
    intro e
    have hd : 0x30 = 0x30 + v := by simpa [e] using digitByte_toNat h
    omega
  | more v h ih =>
    rw [dec_of_ten_le h, List.head?_append, Option.or_of_isSome (List.isSome_head?.2 (dec_ne_nil _))]
    exact ih (by omega)

/-- Settles O54, from the equations of `dec` by induction along the digits. -/
theorem decimalSpellingIsShortestAndExact : Obligations.DecimalSpellingIsShortestAndExact := fun v =>
  ⟨dec_allDigits v, digitsValue_dec v, dec_ne_nil v, dec_head_ne_zero, by rintro rfl; rfl⟩

end Sys2Proof
end

section
/-! PROOFS. What no event of a run changes: the configuration, the output already issued, and the events still to come
(00_scope.md R8, 20_memory.md R69, 10_state.md R27). -/

namespace Sys2Proof.Machine

/-- `t` has the configuration and the pending events of `s`, and its output is that of `s` with operations appended. -/
structure Grows (s t : State) : Prop where
  cfg : t.cfg = s.cfg
  out : s.out <+: t.out
  inputs : t.inputs = s.inputs

namespace Grows

theorem of_append {s t : State} (ops : List OutOp) (hc : t.cfg = s.cfg) (ho : t.out = s.out ++ ops) (hi : t.inputs = s.inputs) :
    Grows s t :=
  ⟨hc, ⟨ops, ho.symm⟩, hi⟩

/-- An update that leaves the three fields alone. -/
theorem of_same {s t : State} (hc : t.cfg = s.cfg) (ho : t.out = s.out) (hi : t.inputs = s.inputs) : Grows s t :=
  .of_append [] hc (by rw [ho, List.append_nil]) hi

theorem trans {s t u : State} (h : Grows s t) (k : Grows t u) : Grows s u :=
  ⟨k.cfg.trans h.cfg, h.out.trans k.out, k.inputs.trans h.inputs⟩

end Grows

theorem takeMalformed_grows {s t : State} (h : takeMalformed s = .next t) : Grows s t := by
  obtain ⟨-, e⟩ | ⟨-, e⟩ := takeMalformed_cases s
  · cases e.symm.trans h
    exact .of_append (signalOps s.cfg) rfl rfl rfl
  · cases e.symm.trans h

theorem completeGood_grows {cmd : Command} (hr : cmd ≠ .reset) {s t : State} (h : completeGood cmd s = .next t) : Grows s t := by
  by_cases hc : s.cmdRx = 0xFFFFFFFF#32
  · cases (completeGood_top cmd hc).symm.trans h
  by_cases hg : cmd = .getState
  · subst hg
    cases hp : s.cfg.report with
    | push =>
      cases (completeGetState_push hp hc).symm.trans h
      exact .of_append (signalOps s.cfg) rfl rfl rfl
    | onDemand =>
      cases (completeGetState_onDemand hp hc).symm.trans h
      exact .of_append _ rfl (List.append_assoc _ _ _) rfl
  · cases (completeGood_eq hg hr hc).symm.trans h
    exact .of_append _ rfl rfl rfl

theorem completeReset_grows {s t : State} (h : completeReset s = .next t) : Grows s t := by
  obtain ⟨-, -, e⟩ | ⟨-, -, e⟩ | ⟨-, e⟩ := completeReset_cases s
  · cases e.symm.trans h
    exact .of_append _ rfl rfl rfl
  · cases e.symm.trans h
  · cases e.symm.trans h
    exact .of_append (signalOps s.cfg ++ [.restartReq]) (by simp) (by simp [signalActivity_eq]) (by simp [signalActivity_eq])

theorem completeFrame_grows {cmd : Command} {s t : State} (h : completeFrame cmd s = .next t) : Grows s t := by
  cases cmd with
  | none => cases h; exact .of_same rfl rfl rfl
  | malformed => exact takeMalformed_grows h
  | reset => exact completeReset_grows h
  | getState | latch | clearLeds | setOneLed | setBatchLeds | setArray | setArrayBit => exact completeGood_grows (by simp) h

theorem finishFrame_grows {d : Except MalformedCause Instr} {s t : State} (h : finishFrame d s = .next t) : Grows s t := by
  obtain ⟨i, -, e⟩ | ⟨_, -, e⟩ := finishFrame_cases d s
  · exact completeFrame_grows (exec_eq i s ▸ e ▸ h)
  · exact takeMalformed_grows (e ▸ h)

theorem storeByte_grows (b : Byte) (s : State) : Grows s (storeByte b s) := by
  rw [storeByte_eq]
  split <;> exact .of_same rfl rfl rfl

theorem tick_grows (s : State) : Grows s (tick s) := by
  obtain ⟨-, e⟩ | ⟨-, _, _, e, -⟩ | ⟨-, _, e⟩ := tick_cases s <;> rw [e]
  · exact .of_same rfl rfl rfl
  · exact .of_append _ rfl rfl rfl
  · exact .of_same rfl rfl rfl

/-- Handling one event, whichever it is. -/
theorem handle_grows {e : Event} {s t : State} (h : handle e s = .next t) : Grows s t := by
  have hnow (now : Word32) : Grows s (s.setNow now) := .of_same rfl rfl rfl
  have hclear (now : Word32) : Grows s (clearReader (s.setNow now)) := .of_same rfl rfl rfl
  obtain ⟨-, rfl⟩ | ⟨-, -, rfl⟩ | ⟨-, -, b, now, -, -, rfl⟩ | ⟨-, -, now, -, hf⟩ | ⟨-, -, p, now, -, -, hf⟩ | ⟨-, now, -, rfl⟩ :=
    handle_cases h
  · exact .of_same rfl rfl rfl
  · exact .of_same rfl rfl rfl
  · exact (hnow now).trans (storeByte_grows b _)
  · exact (hclear now).trans (finishFrame_grows hf)
  · exact (hnow now).trans (finishFrame_grows hf)
  · exact (hnow now).trans (tick_grows _)

/-- Settles O42: an idle step changes nothing, any other handles the next event. -/
theorem stepKeepsConfigAndAppendsOutput : Obligations.StepKeepsConfigAndAppendsOutput := by
  intro s t h
  obtain ⟨-, ⟨hi, rfl⟩ | ⟨e, rest, hi, he⟩⟩ := step_cases h
  · exact ⟨rfl, ⟨[], List.append_nil _⟩, by rw [hi]; rfl⟩
  · obtain ⟨hc, ho, hr⟩ := handle_grows he
    exact ⟨hc, ho, by rw [hr, hi]; rfl⟩

end Sys2Proof.Machine
end

section
/-! PROOFS. The stops: what the environment may not deliver (00_scope.md R7) and the configurations R8 does not admit. -/

namespace Sys2Proof.Machine

theorem step_of_not_wf {s : State} (h : s.cfg.wf = false) : step s = .refused .configOutsideTable := by
  simp [step, nextEvent, h]

theorem isText_eq_false {c : Config} (h : c.proto = .binary) : c.isText = false := by simp [Config.isText, h]

section

variable {s : State} (hh : s.halted = false)
include hh

/-- Binary has no byte port. -/
theorem handle_rxByte_of_binary (hp : s.cfg.proto = .binary) (b : Byte) (now : Word32) :
    handle (.rxByte b now) s = .fault .portAbsent := by
  simp [handle, hh, isText_eq_false hp]

/-- A text protocol has no packet port. -/
theorem handle_packet_of_text (hp : s.cfg.proto ≠ .binary) (p : List Byte) (now : Word32) :
    handle (.packet p now) s = .fault .portAbsent := by
  simp [handle, hh, isText_iff.2 hp]

theorem handle_packet_of_tooLong (hp : s.cfg.proto = .binary) {p : List Byte} (hl : s.cfg.pktMax < p.length) (now : Word32) :
    handle (.packet p now) s = .fault .packetTooLong := by
  simp [handle, hh, isText_eq_false hp, Nat.not_le.2 hl]

end

/-- Settles O39: the admission of the configuration, then that of the event in each framing. -/
theorem eventsOutsideTheInterfaceStop : Obligations.EventsOutsideTheInterfaceStop := by
  intro s b p now rest
  refine ⟨step_of_not_wf, ?byteInBinary, ?packetInText, ?longPacket⟩
  case byteInBinary =>
    intro hw hh hp hi
    exact (step_of_cons hw hi).trans (handle_rxByte_of_binary (s := s.setInputs rest) hh hp b now)
  case packetInText =>
    intro hw hh hp hi
    exact (step_of_cons hw hi).trans (handle_packet_of_text (s := s.setInputs rest) hh hp p now)
  case longPacket =>
    intro hw hh hp hl hi
    exact (step_of_cons hw hi).trans (handle_packet_of_tooLong (s := s.setInputs rest) hh hp hl now)

end Sys2Proof.Machine
end

section
/-! PROOFS. What a finalized frame does, as one inversion each for a good command, the Reset command and the exception
(40_frame_reader.md R117, 43_dispatcher.md R170 to R181), and which frame the Reset command is. -/

namespace Sys2Proof.Machine

/-! ## The registers after the bookkeeping -/

section afterGood

variable (s : State)

@[simp] theorem afterGood_mem : (afterGood s).mem = s.mem := rfl
@[simp] theorem afterGood_cur : (afterGood s).cur = s.cur := rfl
@[simp] theorem afterGood_ovf : (afterGood s).ovf = s.ovf := rfl
@[simp] theorem afterGood_cmdRx : (afterGood s).cmdRx = s.cmdRx + 1#32 := rfl
@[simp] theorem afterGood_badRx : (afterGood s).badRx = s.badRx := rfl
@[simp] theorem afterGood_lastCmd :
    (afterGood s).lastCmd = if s.cfg.statusLField = true ∧ s.cfg.proto ≠ .binary then s.now else s.lastCmd := rfl
@[simp] theorem afterGood_lastSent : (afterGood s).lastSent = s.lastSent := rfl
@[simp] theorem afterGood_dirty : (afterGood s).dirty = s.dirty := rfl
@[simp] theorem afterGood_act : (afterGood s).act = if s.cfg.proto = .binary then !s.act else s.act := rfl
@[simp] theorem afterGood_halted : (afterGood s).halted = s.halted := rfl
@[simp] theorem afterGood_out : (afterGood s).out = s.out := rfl
@[simp] theorem afterGood_inputs : (afterGood s).inputs = s.inputs := rfl
@[simp] theorem afterGood_now : (afterGood s).now = s.now := rfl
@[simp] theorem afterGood_draws : (afterGood s).draws = s.draws := rfl

end afterGood

/-! ## A good command -/

/-- The state after a counted command that issued `ops` after the activity toggle and left `dirty` at `d`. -/
def afterCommand (s : State) (ops : List OutOp) (d : Bool) : State :=
  (issueAll (signalOps s.cfg ++ ops) (afterGood s)).setDirty d

/-- The status frame GetState writes: of the counts after the bookkeeping under `Before`, before it under `After`. -/
def getStateReport (s : State) : List Byte :=
  reportBytes s.cfg (if s.cfg.bookkeep = .before then s.cmdRx.toNat + 1 else s.cmdRx.toNat) s.badRx.toNat
    (if s.cfg.bookkeep = .before then s.now.toNat - (afterGood s).lastCmd.toNat else s.now.toNat - s.lastCmd.toNat)

/-- What a command other than Reset may issue and leave in `dirty`: only GetState has a choice, by the report policy
(43_dispatcher.md R172). -/
inductive GoodEffect (s : State) : Command → List OutOp → Bool → Prop
  | operations {cmd : Command} (hg : cmd ≠ .getState) : GoodEffect s cmd (commandOps s.cfg cmd) s.dirty
  | marksDirty (hp : s.cfg.report = .push) : GoodEffect s .getState [] true
  | reports (hp : s.cfg.report = .onDemand) : GoodEffect s .getState [.outWrite (getStateReport s)] s.dirty

/-- Below the top of the counter a command other than Reset completes, with its effect. -/
theorem completeGood_of_ne_top {cmd : Command} (hr : cmd ≠ .reset) {s : State} (hc : s.cmdRx ≠ 0xFFFFFFFF#32) :
    ∃ ops d, GoodEffect s cmd ops d ∧ completeGood cmd s = .next (afterCommand s ops d) := by
  by_cases hg : cmd = .getState
  · subst hg
    cases hp : s.cfg.report with
    | push =>
      refine ⟨[], true, .marksDirty hp, ?_⟩
      rw [completeGetState_push hp hc, afterCommand, List.append_nil]
      rfl
    | onDemand =>
      refine ⟨_, _, .reports hp, ?_⟩
      rw [completeGetState_onDemand hp hc, List.append_assoc, afterCommand, issueAll, issueAll, replay_append]
      rfl
  · exact ⟨_, _, .operations hg, completeGood_eq hg hr hc⟩

theorem command_eq_getState_iff {i : Instr} : i.command = .getState ↔ i = .textAG ∨ i = .textBS ∨ i = .binaryG := by
  cases i <;> simp [Instr.command]

theorem command_eq_reset_iff {i : Instr} : i.command = .reset ↔ i = .binaryR := by
  cases i <;> simp [Instr.command]

/-- Every instruction but `binaryR` is a good frame whose command returns. -/
theorem exec_of_ne_reset {i : Instr} (h : i ≠ .binaryR) (s : State) : exec i s = completeGood i.command s := by
  cases i with
  | binaryR => exact absurd rfl h
  | _ => rfl

theorem exec_reset (s : State) : exec .binaryR s = completeReset s := rfl

/-- What an instruction other than Reset can do when it answers a next state. -/
theorem exec_next_of_ne_reset {i : Instr} (hr : i ≠ .binaryR) {s t : State} (h : exec i s = .next t) :
    s.cmdRx ≠ 0xFFFFFFFF#32 ∧ ∃ ops d, GoodEffect s i.command ops d ∧ t = afterCommand s ops d := by
  rw [exec_of_ne_reset hr] at h
  by_cases hc : s.cmdRx = 0xFFFFFFFF#32
  · cases (completeGood_top i.command hc).symm.trans h
  · obtain ⟨ops, d, he, e⟩ := completeGood_of_ne_top (fun k => hr (command_eq_reset_iff.1 k)) hc
    cases e.symm.trans h
    exact ⟨hc, ops, d, he, rfl⟩

/-- What Reset can do when it answers a next state: after the toggle the restart request, and the halt; `u` is counted under
`Before` and not under `After` (log entry 10). -/
theorem exec_next_of_reset {s t : State} (h : exec .binaryR s = .next t) :
    ∃ u, (u = afterGood s ∨ u = s.setAct (if s.cfg.proto = .binary then !s.act else s.act)) ∧
      t = (issueAll (signalOps s.cfg ++ [.restartReq]) u).setHalted true := by
  rw [exec_reset] at h
  obtain ⟨-, -, e⟩ | ⟨-, -, e⟩ | ⟨-, e⟩ := completeReset_cases s
  · cases e.symm.trans h
    exact ⟨_, .inl rfl, rfl⟩
  · cases e.symm.trans h
  · cases e.symm.trans h
    rw [signalActivity_eq, issueAll_append]
    exact ⟨_, .inr rfl, rfl⟩

theorem exec_reset_halts {s t : State} (h : exec .binaryR s = .next t) : t.halted = true := by
  obtain ⟨u, -, rfl⟩ := exec_next_of_reset h
  rfl

/-- What finalizing a frame can do when it answers a next state. -/
theorem finishFrame_next {d : Except MalformedCause Instr} {s t : State} (h : finishFrame d s = .next t) :
    (∃ i, d = .ok i ∧ exec i s = .next t) ∨ (∃ cause, d = .error cause) ∧ s.badRx ≠ 0xFFFFFFFF#32 ∧ t = afterBad s := by
  obtain ⟨i, hd, e⟩ | ⟨cause, hd, e⟩ := finishFrame_cases d s
  · exact .inl ⟨i, hd, e.symm.trans h⟩
  · obtain ⟨hb, e'⟩ | ⟨-, e'⟩ := takeMalformed_cases s
    · cases e'.symm.trans (e.symm.trans h)
      exact .inr ⟨⟨cause, hd⟩, hb, rfl⟩
    · cases e'.symm.trans (e.symm.trans h)

/-! ## The frame of the Reset command -/

theorem noOperand_ne_reset {c : Config} {tail : List Byte} {i : Instr} (hi : i ≠ .binaryR) :
    noOperand c tail i ≠ .ok .binaryR := by
  unfold noOperand
  split <;> simp [hi]

theorem setPixel_ne_reset {c : Config} {operands : List Byte} {mk : Nat → Color → Instr} (hmk : ∀ led col, mk led col ≠ .binaryR) :
    setPixel c operands mk ≠ .ok .binaryR := by
  unfold setPixel
  split <;> simp [hmk]

theorem decodeTextA_ne_reset (c : Config) (op : Byte) (tail : List Byte) : decodeTextA c op tail ≠ .ok .binaryR := by
  unfold decodeTextA
  repeat' split
  all_goals simp [noOperand_ne_reset, setPixel_ne_reset]

theorem decodeTextB_ne_reset (c : Config) (op : Byte) (tail : List Byte) : decodeTextB c op tail ≠ .ok .binaryR := by
  unfold decodeTextB
  repeat' split
  all_goals simp [noOperand_ne_reset, setPixel_ne_reset]

theorem noPayload_eq_ok_iff {payload : List Byte} {i j : Instr} : noPayload payload i = .ok j ↔ payload = [] ∧ i = j := by
  unfold noPayload
  split <;> simp_all

theorem decodeBinary_eq_reset_iff {c : Config} {op : Byte} {payload : List Byte} :
    decodeBinary c op payload = .ok .binaryR ↔ op = chR ∧ payload = [] := by
  constructor
  · unfold decodeBinary
    repeat' split
    all_goals simp_all [noPayload_eq_ok_iff]
  · rintro ⟨rfl, rfl⟩
    simp [decodeBinary, noPayload, chR, chG, chL, chC, chO, chB, chA, ch0, ch1]

/-- Only one frame is the Reset command: in Binary the packet `R` alone (42_binary_commands.md R160); no text frame is. -/
theorem decode_eq_reset_iff {c : Config} {f : List Byte} : decode c f = .ok .binaryR ↔ c.proto = .binary ∧ f = [0x52#8] := by
  cases f with
  | nil => simp [decode]
  | cons op tail =>
    cases hp : c.proto with
    | textA => simpa [decode, hp] using decodeTextA_ne_reset c op tail
    | textB => simpa [decode, hp] using decodeTextB_ne_reset c op tail
    | binary => simpa [decode, hp, chR] using decodeBinary_eq_reset_iff

/-- A line of a text protocol is never the Reset command. -/
theorem lineResult_ne_reset {s : State} (ht : s.cfg.isText = true) : lineResult s ≠ .ok .binaryR := by
  unfold lineResult
  split
  · simp
  · exact fun h => isText_iff.1 ht (decode_eq_reset_iff.1 h).1

end Sys2Proof.Machine
end

section
/-! PROOFS. The invariant of a run (10_state.md R20, R22, R24; 40_frame_reader.md R111): it holds at reset, each update of the state keeps
it where the updated field exists, and so every event keeps it. -/

namespace Sys2Proof.Machine

theorem two_le_cap {c : Config} (h : c.wf = true) : 2 ≤ c.cap := by
  simp only [Config.wf, Bool.and_eq_true, decide_eq_true_eq] at h
  omega

theorem zero_ne_cap {c : Config} (h : c.wf = true) : 0 ≠ c.cap := by
  have := two_le_cap h
  omega

theorem resetWith_inv {c : Config} (hc : c.wf = true) (d : Nat) : (State.resetWith c d).Inv := by
  refine ⟨hc, Memory.unspecified_wf c d, Nat.zero_le _, ?_, ?_⟩
  · simp [State.resetWith, zero_ne_cap hc]
  · simp [State.absentFieldsAtReset, State.resetWith]

/-- Settles O40: in every admitted configuration, `BASE` among them. -/
theorem resetEstablishesInvariant : Obligations.ResetEstablishesInvariant :=
  ⟨fun _ d hc => resetWith_inv hc d, resetWith_inv (by decide) 0, rfl, rfl, rfl, rfl, rfl, rfl, rfl, rfl, rfl⟩

/-! ## The updates of the state -/

namespace State.Inv

variable {s : State} (h : s.Inv)
include h

theorem setInputs (es : List Event) : (s.setInputs es).Inv := h

theorem setNow (v : Word32) : (s.setNow v).Inv := h

theorem setCmdRx (v : Word32) : (s.setCmdRx v).Inv := h

theorem setBadRx (v : Word32) : (s.setBadRx v).Inv := h

theorem issueAll (ops : List OutOp) : (issueAll ops s).Inv := by
  obtain ⟨hc, hm, hle, ho, ha⟩ := h
  exact ⟨hc, replay_wf ops hm, hle, ho, ha⟩

/-- `act` is inverted where it exists, in Binary alone. -/
theorem toggle : (s.setAct (if s.cfg.proto = .binary then !s.act else s.act)).Inv := by
  obtain ⟨hc, hm, hle, ho, hact, hrest⟩ := h
  refine ⟨hc, hm, hle, ho, fun hp => ?_, hrest⟩
  simpa [show s.cfg.proto ≠ .binary from hp] using hact hp

/-- `lastCmd` is written where it exists. -/
theorem setLastCmd {v : Word32} (hv : s.cfg.hasLastCmd = false → v = s.lastCmd) : (s.setLastCmd v).Inv := by
  obtain ⟨hc, hm, hle, ho, hact, hpush, hlast, hbin⟩ := h
  exact ⟨hc, hm, hle, ho, hact, hpush, fun hl => (hv hl).trans (hlast hl), hbin⟩

/-- `dirty` and `lastSent` are written under the push policy, where they exist. -/
theorem setDirty (hp : s.cfg.report = .push) (v : Bool) : (s.setDirty v).Inv := by
  obtain ⟨hc, hm, hle, ho, hact, -, hrest⟩ := h
  exact ⟨hc, hm, hle, ho, hact, fun k => absurd hp k, hrest⟩

theorem setLastSent (hp : s.cfg.report = .push) (v : Word32) : (s.setLastSent v).Inv := by
  obtain ⟨hc, hm, hle, ho, hact, -, hrest⟩ := h
  exact ⟨hc, hm, hle, ho, hact, fun k => absurd hp k, hrest⟩

/-- `halted` is written in Binary, where it exists. -/
theorem setHalted (hp : s.cfg.proto = .binary) (v : Bool) : (s.setHalted v).Inv := by
  obtain ⟨hc, hm, hle, ho, -, hrest⟩ := h
  exact ⟨hc, hm, hle, ho, fun k => absurd hp k, hrest⟩

/-- Finalization empties the reader. -/
theorem clearReader : (clearReader s).Inv := by
  obtain ⟨hc, hm, -, -, hact, hpush, hlast, -⟩ := h
  refine ⟨hc, hm, Nat.zero_le _, ?_, hact, hpush, hlast, fun _ => ⟨rfl, rfl⟩⟩
  simp [Machine.clearReader, zero_ne_cap hc]

/-- A data byte of a text protocol: the flag rises exactly when the cursor reaches `CAP`. -/
theorem storeByte (ht : s.cfg.isText = true) (b : Byte) : (storeByte b s).Inv := by
  rw [storeByte_eq]
  split
  next hlt =>
    obtain ⟨hc, hm, -, ho, hact, hpush, hlast, -⟩ := h
    have hovf : s.ovf = false := by
      rw [← Bool.not_eq_true, ho]
      omega
    refine ⟨hc, Memory.fbStore_wf s.cur b hm, hlt, ?_, hact, hpush, hlast, fun hp => absurd hp (isText_iff.1 ht)⟩
    simp [hovf]
  next => exact h

/-! ## Events -/

/-- The bookkeeping of a good frame stamps `lastCmd` where it exists. -/
theorem afterGood : (afterGood s).Inv :=
  (h.toggle.setCmdRx _).setLastCmd fun hl => if_neg fun k => by simp [hasLastCmd_iff.2 k] at hl

theorem afterBad : (afterBad s).Inv := h.toggle.setBadRx (s.badRx + 1#32)

theorem tick : (tick s).Inv := by
  obtain ⟨-, e⟩ | ⟨hp, t, lc, e, hlc⟩ | ⟨hp, t, e⟩ := tick_cases s <;> rw [e]
  · exact h
  · exact ((h.setLastSent hp t).setLastCmd hlc).setDirty hp false
  · exact h.setLastSent hp t

theorem extReset : (extReset s).Inv := resetWith_inv h.1 s.draws

/-- A command: Reset is a command of Binary alone, where `halted` exists; only GetState writes `dirty`, under the push policy. -/
theorem exec {i : Instr} {t : State} (hb : i = .binaryR → s.cfg.proto = .binary) (he : exec i s = .next t) : t.Inv := by
  by_cases hr : i = .binaryR
  · subst hr
    obtain ⟨u, rfl | rfl, rfl⟩ := exec_next_of_reset he
    · exact (h.afterGood.issueAll _).setHalted (hb rfl) true
    · exact (h.toggle.issueAll _).setHalted (hb rfl) true
  · obtain ⟨-, ops, d, hx, rfl⟩ := exec_next_of_ne_reset hr he
    have hops := h.afterGood.issueAll (signalOps s.cfg ++ ops)
    generalize i.command = cmd at hx
    cases hx with
    | operations => exact hops
    | marksDirty hp => exact hops.setDirty hp true
    | reports => exact hops

theorem finishFrame {d : Except MalformedCause Instr} {t : State} (hd : d = .ok .binaryR → s.cfg.proto = .binary)
    (hf : finishFrame d s = .next t) : t.Inv := by
  obtain ⟨i, rfl, he⟩ | ⟨-, -, rfl⟩ := finishFrame_next hf
  · exact h.exec (fun hi => hd (by rw [hi])) he
  · exact h.afterBad

theorem handle {e : Event} {t : State} (he : handle e s = .next t) : t.Inv := by
  obtain ⟨-, rfl⟩ | ⟨-, -, rfl⟩ | ⟨-, ht, b, now, -, -, rfl⟩ | ⟨-, ht, now, -, hf⟩ | ⟨-, -, p, now, -, -, hf⟩ | ⟨-, now, -, rfl⟩ :=
    handle_cases he
  · exact h.extReset
  · exact h
  · exact (h.setNow now).storeByte ht b
  · exact (h.setNow now).clearReader.finishFrame (fun hd => absurd hd (lineResult_ne_reset ht)) hf
  · exact (h.setNow now).finishFrame (fun hd => (decode_eq_reset_iff.1 hd).1) hf
  · exact (h.setNow now).tick

end State.Inv

/-- Settles O41: an idle step changes nothing, and every event keeps the invariant. -/
theorem stepKeepsInvariant : Obligations.StepKeepsInvariant := by
  intro s t h hs
  obtain ⟨-, ⟨-, rfl⟩ | ⟨e, rest, -, he⟩⟩ := step_cases hs
  · exact h
  · exact (h.setInputs rest).handle he

end Sys2Proof.Machine
end

section
/-! PROOFS. What a command leaves behind: that it completes (10_state.md R30), the registers it may write (R21 to R35), and the one sink
its operations mutate (R41). -/

namespace Sys2Proof.Machine

/-- Settles O25: a Reset under `After` is not counted, every other command is counted once. -/
theorem commandsCompleteBelowCounterTop : Obligations.CommandsCompleteBelowCounterTop := by
  intro s i
  by_cases hr : i = .binaryR
  · subst hr
    rw [exec_reset]
    obtain ⟨-, hc, e⟩ | ⟨-, hc, e⟩ | ⟨hb, e⟩ := completeReset_cases s
    · exact ⟨fun _ => ⟨_, e⟩, fun k => absurd k hc⟩
    · exact ⟨fun k => absurd hc k, fun _ _ => e⟩
    · exact ⟨fun _ => ⟨_, e⟩, fun _ k => absurd ⟨rfl, hb⟩ k⟩
  · rw [exec_of_ne_reset hr]
    refine ⟨fun hc => ?_, fun hc _ => completeGood_top i.command hc⟩
    obtain ⟨ops, d, -, e⟩ := completeGood_of_ne_top (fun k => hr (command_eq_reset_iff.1 k)) hc
    exact ⟨_, e⟩

/-- A command other than GetState leaves `dirty`. -/
theorem GoodEffect.dirty_eq {s : State} {cmd : Command} {ops : List OutOp} {d : Bool} (h : GoodEffect s cmd ops d)
    (hg : cmd ≠ .getState) : d = s.dirty := by
  cases h with
  | operations => rfl
  | marksDirty => exact absurd rfl hg
  | reports => exact absurd rfl hg

/-- Settles O26: the registers of the two states a command can end in. -/
theorem commandRegisterFrame : Obligations.CommandRegisterFrame := by
  intro s t i h
  by_cases hr : i = .binaryR
  · subst hr
    obtain ⟨u, rfl | rfl, rfl⟩ := exec_next_of_reset h <;> simp
  · obtain ⟨hc, ops, d, hx, rfl⟩ := exec_next_of_ne_reset hr h
    have hd (ha : i ≠ .textAG) (hb : i ≠ .textBS) (hg : i ≠ .binaryG) : d = s.dirty :=
      hx.dirty_eq fun k => by simp [command_eq_getState_iff, ha, hb, hg] at k
    simpa [afterCommand, toNat_counter_succ hc] using hd

/-! ## One sink category -/

/-- The operations mutate at most one of the two sinks. -/
def OneSink (ops : List OutOp) : Prop :=
  (∀ a ∈ ops, a.isPixelMutation = false) ∨ (∀ b ∈ ops, b.isBitMutation = false)

/-- A pixel write is no bit write, wherever its run of pixels begins. -/
theorem runOps_no_bit (idx : Nat) (cols : List Color) : ∀ b ∈ runOps idx cols, b.isBitMutation = false := by
  induction cols generalizing idx with
  | nil => simp [runOps]
  | cons col cols ih => simpa [runOps_cons, OutOp.isBitMutation] using ih (idx + 1)

/-- The activity toggle mutates no sink. -/
theorem OneSink.signalOps_append {ops : List OutOp} (h : OneSink ops) (c : Config) : OneSink (signalOps c ++ ops) := by
  unfold signalOps
  split
  · simpa [OneSink, OutOp.isPixelMutation, OutOp.isBitMutation] using h
  · exact h

theorem OneSink.nil : OneSink [] := .inl (by simp)

theorem OneSink.outWrite (bytes : List Byte) : OneSink [.outWrite bytes] := .inl (by simp [OutOp.isPixelMutation])

/-- The pixel commands mutate no bit, the bit commands no pixel, the others neither (43_dispatcher.md R183). -/
theorem commandOps_oneSink (c : Config) (cmd : Command) : OneSink (commandOps c cmd) := by
  cases cmd with
  | none | malformed | getState => exact .nil
  | latch => exact .inr (by simp [commandOps, or_imp, forall_and, OutOp.isBitMutation])
  | clearLeds => exact .inr (by simpa [commandOps, or_imp, forall_and, OutOp.isBitMutation] using runOps_no_bit 0 _)
  | setOneLed => exact .inr (by simp [commandOps, OutOp.isBitMutation])
  | setBatchLeds start cols => exact .inr (runOps_no_bit start cols)
  | setArray => exact .inl (by simp [commandOps, OutOp.isPixelMutation])
  | setArrayBit => exact .inl (by simp [commandOps, OutOp.isPixelMutation])
  | reset => exact .inl (by simp [commandOps, OutOp.isPixelMutation])

theorem GoodEffect.oneSink {s : State} {cmd : Command} {ops : List OutOp} {d : Bool} (h : GoodEffect s cmd ops d) : OneSink ops := by
  cases h with
  | operations => exact commandOps_oneSink s.cfg cmd
  | marksDirty => exact .nil
  | reports => exact .outWrite _

/-- `t` has the output of `s` with operations on at most one sink appended. -/
def AppendsOneSink (s t : State) : Prop := ∃ ops, t.out = s.out ++ ops ∧ OneSink ops

theorem AppendsOneSink.of_same {s t : State} (h : t.out = s.out) : AppendsOneSink s t := ⟨[], by simp [h], .nil⟩

theorem exec_appendsOneSink {i : Instr} {s t : State} (h : exec i s = .next t) : AppendsOneSink s t := by
  by_cases hr : i = .binaryR
  · subst hr
    obtain ⟨u, hu, rfl⟩ := exec_next_of_reset h
    refine ⟨_, ?_, (commandOps_oneSink s.cfg .reset).signalOps_append s.cfg⟩
    obtain rfl | rfl := hu <;> rfl
  · obtain ⟨-, ops, d, hx, rfl⟩ := exec_next_of_ne_reset hr h
    exact ⟨_, rfl, hx.oneSink.signalOps_append s.cfg⟩

theorem finishFrame_appendsOneSink {d : Except MalformedCause Instr} {s t : State} (h : finishFrame d s = .next t) :
    AppendsOneSink s t := by
  obtain ⟨i, -, he⟩ | ⟨-, -, rfl⟩ := finishFrame_next h
  · exact exec_appendsOneSink he
  · exact ⟨_, rfl, by simpa using OneSink.nil.signalOps_append s.cfg⟩

theorem tick_appendsOneSink (s : State) : AppendsOneSink s (tick s) := by
  obtain ⟨-, e⟩ | ⟨-, _, _, e, -⟩ | ⟨-, _, e⟩ := tick_cases s <;> rw [e]
  · exact .of_same rfl
  · exact ⟨_, rfl, .outWrite _⟩
  · exact .of_same rfl

theorem storeByte_out (b : Byte) (s : State) : (storeByte b s).out = s.out := by
  rw [storeByte_eq]
  split <;> rfl

theorem handle_appendsOneSink {e : Event} {s t : State} (h : handle e s = .next t) : AppendsOneSink s t := by
  obtain ⟨-, rfl⟩ | ⟨-, -, rfl⟩ | ⟨-, -, b, now, -, -, rfl⟩ | ⟨-, -, now, -, hf⟩ | ⟨-, -, p, now, -, -, hf⟩ | ⟨-, now, -, rfl⟩ :=
    handle_cases h
  · exact .of_same rfl
  · exact .of_same rfl
  · exact .of_same (storeByte_out b (s.setNow now))
  · exact finishFrame_appendsOneSink (s := clearReader (s.setNow now)) hf
  · exact finishFrame_appendsOneSink (s := s.setNow now) hf
  · exact tick_appendsOneSink (s.setNow now)

theorem issued_of_append {s t : State} {ops : List OutOp} (h : t.out = s.out ++ ops) : issued s t = ops := by
  simp [issued, h]

theorem step_issues_oneSink {s t : State} (h : step s = .next t) : OneSink (issued s t) := by
  obtain ⟨-, ⟨-, rfl⟩ | ⟨e, rest, -, he⟩⟩ := step_cases h
  · rw [issued_of_append (List.append_nil t.out).symm]
    exact .nil
  · obtain ⟨ops, ho, h1⟩ := handle_appendsOneSink he
    rwa [issued_of_append (s := s) ho]

/-- Settles O45: what a step issues mutates at most one sink. -/
theorem oneSinkCategoryPerStep : Obligations.OneSinkCategoryPerStep := by
  rintro s t a b h ha hb ⟨hp, hk⟩
  obtain h1 | h1 := step_issues_oneSink h
  · simp [h1 a ha] at hp
  · simp [h1 b hb] at hk

end Sys2Proof.Machine
end

section
/-! PROOFS. The counters and `halted` along a run: a finalizing event counts its frame once (40_frame_reader.md R117), only the Reset packet
halts, and only `ExtReset` revives (10_state.md R35). -/

namespace Sys2Proof.Machine

/-! ## A halted core -/

/-- A halted core ignores every event but `ExtReset` (10_state.md R35; log entry 7). -/
theorem handle_of_halted {s : State} {e : Event} (hh : s.halted = true) (he : e ≠ .extReset) : handle e s = .next s := by
  cases e with
  | extReset => exact absurd rfl he
  | rxByte | packet | tick => simp [handle, hh]

/-- Settles O38: the event is taken, and the halted core ignores it. -/
theorem haltedIgnoresEvent : Obligations.HaltedIgnoresEvent := by
  intro s e rest hw hh hi he
  rw [step_of_cons hw hi]
  exact handle_of_halted (s := s.setInputs rest) hh he

theorem setInputs_of_eq {s : State} {es : List Event} (h : s.inputs = es) : s.setInputs es = s := by
  subst h
  rfl

/-- A step of a halted core: `ExtReset`, or nothing but the event taken. -/
theorem step_of_halted {s t : State} (h : step s = .next t) (hh : s.halted = true) :
    (∃ rest, s.inputs = .extReset :: rest ∧ t = extReset (s.setInputs rest)) ∨
    (s.inputs.head? ≠ some .extReset ∧ t = s.setInputs s.inputs.tail) := by
  obtain ⟨-, ⟨hi, rfl⟩ | ⟨e, rest, hi, he⟩⟩ := step_cases h
  · exact .inr ⟨by simp [hi], (setInputs_of_eq (by simp [hi])).symm⟩
  · by_cases hx : e = .extReset
    · subst hx
      cases he
      exact .inl ⟨rest, hi, rfl⟩
    · cases (handle_of_halted (s := s.setInputs rest) hh hx).symm.trans he
      exact .inr ⟨by simpa [hi] using hx, by simp [hi]⟩

/-! ## The counters -/

/-- Exactly one of the two counters has one frame more. -/
def CountsOnce (s t : State) : Prop :=
  t.cmdRx.toNat = s.cmdRx.toNat + 1 ∧ t.badRx = s.badRx ∨ t.badRx.toNat = s.badRx.toNat + 1 ∧ t.cmdRx = s.cmdRx

/-- A good frame, but for the Reset that halts, and a bad frame are each counted once. -/
theorem finishFrame_countsOnce {d : Except MalformedCause Instr} {s t : State} (h : finishFrame d s = .next t)
    (ht : t.halted = false) : CountsOnce s t := by
  obtain ⟨i, -, he⟩ | ⟨-, hb, rfl⟩ := finishFrame_next h
  · have hr : i ≠ .binaryR := by
      rintro rfl
      simp [exec_reset_halts he] at ht
    obtain ⟨hc, ops, d, -, rfl⟩ := exec_next_of_ne_reset hr he
    exact .inl ⟨toNat_counter_succ hc, rfl⟩
  · exact .inr ⟨toNat_counter_succ hb, rfl⟩

/-- `t` has the counters and the flag `halted` of `s`. -/
structure SameCounters (s t : State) : Prop where
  cmdRx : t.cmdRx = s.cmdRx
  badRx : t.badRx = s.badRx
  halted : t.halted = s.halted

theorem SameCounters.of_setNow {s t : State} {now : Word32} (h : SameCounters (s.setNow now) t) : SameCounters s t :=
  ⟨h.cmdRx, h.badRx, h.halted⟩

theorem tick_sameCounters (s : State) : SameCounters s (tick s) := by
  obtain ⟨-, e⟩ | ⟨-, _, _, e, -⟩ | ⟨-, _, e⟩ := tick_cases s <;> rw [e] <;> exact ⟨rfl, rfl, rfl⟩

theorem storeByte_sameCounters (b : Byte) (s : State) : SameCounters s (storeByte b s) := by
  rw [storeByte_eq]
  split <;> exact ⟨rfl, rfl, rfl⟩

/-- A terminator and a packet finalize one frame; a data byte and a `Tick` count none (40_frame_reader.md R117, R118). -/
theorem handle_counts {e : Event} {s t : State} (h : handle e s = .next t) (hx : e ≠ .extReset) (hs : s.halted = false)
    (ht : t.halted = false) : (e.finalizes = true → CountsOnce s t) ∧ (e.finalizes = false → SameCounters s t) := by
  obtain ⟨rfl, -⟩ | ⟨-, hh, -⟩ | ⟨-, -, b, now, rfl, hb, rfl⟩ | ⟨-, -, now, rfl, hf⟩ | ⟨-, -, p, now, rfl, -, hf⟩ | ⟨-, now, rfl, rfl⟩ :=
    handle_cases h
  · exact absurd rfl hx
  · simp [hs] at hh
  · have hkeep := (storeByte_sameCounters b (s.setNow now)).of_setNow
    simp [Event.finalizes, hb, hkeep]
  · have hone : CountsOnce s t := finishFrame_countsOnce (s := clearReader (s.setNow now)) hf ht
    simp [Event.finalizes, hone]
  · have hone : CountsOnce s t := finishFrame_countsOnce (s := s.setNow now) hf ht
    simp [Event.finalizes, hone]
  · have hkeep := (tick_sameCounters (s.setNow now)).of_setNow
    simp [Event.finalizes, hkeep]

/-- Settles O47: the step handles its event, which counts once or not at all. -/
theorem exactlyOneCounterPerFrame : Obligations.ExactlyOneCounterPerFrame := by
  intro s t e rest h hi hx hs ht
  rw [step_of_cons (step_cases h).1 hi] at h
  obtain ⟨hone, hnone⟩ := handle_counts h hx hs ht
  exact ⟨hone, fun k => ⟨(hnone k).cmdRx, (hnone k).badRx⟩⟩

/-! ## What halts and what revives -/

/-- A frame halts exactly when it is the Reset command. -/
theorem finishFrame_halted_iff {d : Except MalformedCause Instr} {s t : State} (h : finishFrame d s = .next t)
    (hs : s.halted = false) : t.halted = true ↔ d = .ok .binaryR := by
  obtain ⟨i, rfl, he⟩ | ⟨⟨cause, rfl⟩, -, rfl⟩ := finishFrame_next h
  · by_cases hr : i = .binaryR
    · subst hr
      simp [exec_reset_halts he]
    · obtain ⟨-, ops, d, -, rfl⟩ := exec_next_of_ne_reset hr he
      simp [afterCommand, hs, hr]
  · simp [afterBad, hs]

/-- An event halts a running core exactly when it is the Reset packet. -/
theorem handle_halted_iff {e : Event} {s t : State} (h : handle e s = .next t) (hs : s.halted = false) :
    t.halted = true ↔ ∃ now, e = .packet [0x52#8] now := by
  obtain ⟨rfl, rfl⟩ | ⟨-, hh, -⟩ | ⟨-, -, b, now, rfl, -, rfl⟩ | ⟨-, ht, now, rfl, hf⟩ | ⟨-, ht, p, now, rfl, -, hf⟩ | ⟨-, now, rfl, rfl⟩ :=
    handle_cases h
  · simp [extReset, State.resetWith]
  · simp [hs] at hh
  · simp [(storeByte_sameCounters b (s.setNow now)).halted, hs]
  · rw [finishFrame_halted_iff hf hs]
    simpa using lineResult_ne_reset ht
  · have hp : s.cfg.proto = .binary := Decidable.byContradiction fun k => by simp [isText_iff.2 k] at ht
    rw [finishFrame_halted_iff hf hs, decode_eq_reset_iff]
    simp [hp]
  · simp [(tick_sameCounters (s.setNow now)).halted, hs]

/-- Settles O48: a running core by its events, a halted one by the step law of a halted core. -/
theorem onlyResetHaltsOnlyExtResetRevives : Obligations.OnlyResetHaltsOnlyExtResetRevives := by
  intro s t h
  refine ⟨fun hs => ?running, fun hs => ?halted, fun hs hx => ?frozen⟩
  case running =>
    obtain ⟨-, ⟨hi, rfl⟩ | ⟨e, rest, hi, he⟩⟩ := step_cases h
    · simp [hi, hs]
    · rw [handle_halted_iff he hs, hi]
      simp
  case halted =>
    obtain ⟨rest, hi, rfl⟩ | ⟨hx, rfl⟩ := step_of_halted h hs
    · simp [extReset, State.resetWith, hi]
    · simp only [State.setInputs_halted, hs, Bool.true_eq_false, false_iff, not_exists]
      rintro rest hi
      simp [hi] at hx
  case frozen =>
    obtain ⟨rest, hi, -⟩ | ⟨-, e⟩ := step_of_halted h hs
    · simp [hi] at hx
    · exact e

end Sys2Proof.Machine
end

section
/-! PROOFS. The sinks along a run (20_memory.md R50, R51, R69, R70): whatever a step does, its issued operations applied in order account
for the contents of the four sink memories. -/

namespace Sys2Proof.Machine

/-- The two memories agree on the sinks; only the frame buffer may differ. -/
structure SameSinks (m m' : Memory) : Prop where
  pixp : m.pixp = m'.pixp
  pixv : m.pixv = m'.pixv
  bitp : m.bitp = m'.bitp
  bitv : m.bitv = m'.bitv

theorem SameSinks.of_eq {m m' : Memory} (h : m = m') : SameSinks m m' := by
  subst h
  exact ⟨rfl, rfl, rfl, rfl⟩

/-- `t` has the output of `s` with operations appended, and its sinks hold what these operations make of those of `s`. -/
def Replays (s t : State) : Prop :=
  ∃ ops, t.out = s.out ++ ops ∧ SameSinks t.mem (replay s.cfg ops s.mem)

/-- An update that issues nothing and leaves the sinks alone. -/
theorem Replays.of_same {s t : State} (ho : t.out = s.out) (hm : SameSinks t.mem s.mem) : Replays s t :=
  ⟨[], by rw [ho, List.append_nil], hm⟩

theorem exec_replays {i : Instr} {s t : State} (h : exec i s = .next t) : Replays s t := by
  by_cases hr : i = .binaryR
  · subst hr
    obtain ⟨u, rfl | rfl, rfl⟩ := exec_next_of_reset h <;> exact ⟨_, rfl, .of_eq rfl⟩
  · obtain ⟨-, ops, d, -, rfl⟩ := exec_next_of_ne_reset hr h
    exact ⟨_, rfl, .of_eq rfl⟩

theorem finishFrame_replays {d : Except MalformedCause Instr} {s t : State} (h : finishFrame d s = .next t) : Replays s t := by
  obtain ⟨i, -, he⟩ | ⟨-, -, rfl⟩ := finishFrame_next h
  · exact exec_replays he
  · exact ⟨signalOps s.cfg, rfl, .of_eq (replay_signalOps s.cfg s.mem).symm⟩

theorem tick_replays (s : State) : Replays s (tick s) := by
  obtain ⟨-, e⟩ | ⟨-, _, _, e, -⟩ | ⟨-, _, e⟩ := tick_cases s <;> rw [e]
  · exact .of_same rfl (.of_eq rfl)
  · exact ⟨_, rfl, .of_eq rfl⟩
  · exact .of_same rfl (.of_eq rfl)

/-- A data byte is stored in the frame buffer, which is no sink. -/
theorem storeByte_sameSinks (b : Byte) (s : State) : SameSinks (storeByte b s).mem s.mem := by
  rw [storeByte_eq]
  split <;> exact ⟨rfl, rfl, rfl, rfl⟩

/-- Every event but `ExtReset`, which draws the memories afresh. -/
theorem handle_replays {e : Event} {s t : State} (h : handle e s = .next t) (hx : e ≠ .extReset) : Replays s t := by
  obtain ⟨rfl, -⟩ | ⟨-, -, rfl⟩ | ⟨-, -, b, now, -, -, rfl⟩ | ⟨-, -, now, -, hf⟩ | ⟨-, -, p, now, -, -, hf⟩ | ⟨-, now, -, rfl⟩ :=
    handle_cases h
  · exact absurd rfl hx
  · exact .of_same rfl (.of_eq rfl)
  · exact .of_same (storeByte_out b (s.setNow now)) (storeByte_sameSinks b (s.setNow now))
  · exact finishFrame_replays (s := clearReader (s.setNow now)) hf
  · exact finishFrame_replays (s := s.setNow now) hf
  · exact tick_replays (s.setNow now)

theorem step_sinks_replay_issued {s t : State} (h : step s = .next t) (hx : s.inputs.head? ≠ some .extReset) :
    SameSinks t.mem (replay s.cfg (issued s t) s.mem) := by
  obtain ⟨-, ⟨-, rfl⟩ | ⟨e, rest, hi, he⟩⟩ := step_cases h
  · rw [issued_of_append (List.append_nil t.out).symm]
    exact .of_eq rfl
  · obtain ⟨ops, ho, hm⟩ := handle_replays he (fun k => hx (by rw [hi, k]; rfl))
    rwa [issued_of_append (s := s) ho]

/-- Settles O43: an idle step issues nothing, and each event's operations account for its effect on the sinks. -/
theorem sinksReplayIssuedOperations : Obligations.SinksReplayIssuedOperations := by
  intro s t h hx
  obtain ⟨hpixp, hpixv, hbitp, hbitv⟩ := step_sinks_replay_issued h hx
  exact ⟨hpixp, hpixv, hbitp, hbitv⟩

/-! ## What a list of operations leaves alone -/

/-- What each of the operations leaves alone, the list of them leaves alone. -/
theorem replay_unchanged {α : Type} (f : Memory → α) {c : Config} {ops : List OutOp}
    (h : ∀ op ∈ ops, ∀ m : Memory, f (m.apply c op) = f m) (m : Memory) : f (replay c ops m) = f m := by
  induction ops generalizing m with
  | nil => rfl
  | cons op ops ih =>
    rw [List.forall_mem_cons] at h
    exact (ih h.2 (m.apply c op)).trans (h.1 m)

/-- Only `PixFlush` writes `PIXV` (20_memory.md R51, R53). -/
theorem apply_pixv (c : Config) {op : OutOp} (h : op ≠ .pixFlush) (m : Memory) : (m.apply c op).pixv = m.pixv := by
  cases op with
  | pixFlush => exact absurd rfl h
  | _ => simp [Memory.apply]

/-- Only `BitCommit` writes `BITV` (20_memory.md R54, R57). -/
theorem apply_bitv (c : Config) {op : OutOp} (h : op ≠ .bitCommit) (m : Memory) : (m.apply c op).bitv = m.bitv := by
  cases op with
  | bitCommit => exact absurd rfl h
  | _ => simp [Memory.apply]

theorem replay_pixv (c : Config) {ops : List OutOp} (h : OutOp.pixFlush ∉ ops) (m : Memory) : (replay c ops m).pixv = m.pixv :=
  replay_unchanged Memory.pixv (fun _ ho => apply_pixv c (ne_of_mem_of_not_mem ho h)) m

theorem replay_bitv (c : Config) {ops : List OutOp} (h : OutOp.bitCommit ∉ ops) (m : Memory) : (replay c ops m).bitv = m.bitv :=
  replay_unchanged Memory.bitv (fun _ ho => apply_bitv c (ne_of_mem_of_not_mem ho h)) m

/-- Settles O44: the sinks replay the issued operations, and of these only a flush or a commit writes a visible memory. -/
theorem visibleChangesOnlyByFlushOrCommit : Obligations.VisibleChangesOnlyByFlushOrCommit := by
  intro s t h hx
  have hsinks := step_sinks_replay_issued h hx
  exact ⟨fun hf => hsinks.pixv.trans (replay_pixv s.cfg hf s.mem), fun hc => hsinks.bitv.trans (replay_bitv s.cfg hc s.mem)⟩

end Sys2Proof.Machine
end

section
/-! PROOFS. The reference memories element by element (20_memory.md R52, R55, R56, R63): the target of a write, what a write leaves to be
read, and a load of the packed bits as one write per bit. -/

namespace Sys2Proof.Machine

/-! ## Targets -/

theorem pixTarget_eq_some_iff {c : Config} (hn : 1 ≤ c.n) {i j : Nat} :
    pixTarget c i = some j ↔ j < c.n ∧ (j = i ∨ c.n ≤ i ∧ c.pixOor = .clamp ∧ j = c.n - 1) := by
  by_cases hi : i < c.n
  · rw [pixTarget_inRange hi, Option.some.injEq]
    omega
  · cases hp : c.pixOor <;> simp [pixTarget, hi, hp] <;> omega

theorem bitTarget_eq_some_iff {c : Config} (hm : 1 ≤ c.m) {k j : Nat} :
    bitTarget c k = some j ↔ j < c.m ∧ (j = k ∨ c.m ≤ k ∧ c.bitOor = .clamp ∧ j = c.m - 1) := by
  by_cases hk : k < c.m
  · rw [bitTarget_inRange hk, Option.some.injEq]
    omega
  · cases hb : c.bitOor <;> simp [bitTarget, hk, hb] <;> omega

/-! ## Bits of the packed bytes -/

/-- The bit `k` of the packed bytes, 0 past their end: the value R56 gives the `k`-th `BitSet` of a load. -/
def packedBit (bytes : List Byte) (k : Nat) : Bool := (bytes.getD (k >>> 3) 0#8).getLsbD (k % 8)

theorem bitAt_of_lt {bytes : List Byte} {k : Nat} (h : k / 8 < bytes.length) : bitAt bytes k = some (packedBit bytes k) := by
  simp [bitAt, packedBit, Nat.shiftRight_eq_div_pow, h]

theorem bitAt_of_le {bytes : List Byte} {k : Nat} (h : bytes.length ≤ k / 8) : bitAt bytes k = none := by
  simp [bitAt, h]

/-- Packed bytes are determined by their bits. -/
theorem eq_of_bitAt_eq {a b : List Byte} (h : ∀ k, bitAt a k = bitAt b k) : a = b := by
  refine List.ext_getElem? fun i => ?_
  have hbit (q : Nat) (hq : q < 8) : a[i]?.map (·.getLsbD q) = b[i]?.map (·.getLsbD q) := by
    have hk := h (8 * i + q)
    rwa [bitAt, bitAt, show (8 * i + q) / 8 = i by omega, show (8 * i + q) % 8 = q by omega] at hk
  generalize a[i]? = x, b[i]? = y at hbit
  cases x with
  | none =>
    cases y with
    | none => rfl
    | some y => exact absurd (hbit 0 (by decide)).symm (Option.some_ne_none _)
  | some x =>
    cases y with
    | none => exact absurd (hbit 0 (by decide)) (Option.some_ne_none _)
    | some y => exact congrArg some (BitVec.eq_of_getLsbD_eq fun q hq => Option.some.inj (hbit q hq))

/-- The mask of a bit has that one bit of its byte. -/
theorem bitMask_getLsbD (k : Nat) {q : Nat} (hq : q < 8) : (bitMask k).getLsbD q = decide (q = k % 8) := by
  by_cases h : q = k % 8 <;> simp [bitMask, h] <;> omega

/-- One byte after its bit `k mod 8` is set or cleared (20_memory.md R55). -/
theorem getLsbD_maskedByte (b : Byte) (k : Nat) (v : Bool) {q : Nat} (hq : q < 8) :
    (if v then b ||| bitMask k else b &&& ~~~(bitMask k)).getLsbD q = if q = k % 8 then v else b.getLsbD q := by
  cases v with
  | true =>
    rw [if_pos rfl, BitVec.getLsbD_or, bitMask_getLsbD k hq]
    split <;> simp [*]
  | false =>
    rw [if_neg Bool.false_ne_true, BitVec.getLsbD_and, BitVec.getLsbD_not, bitMask_getLsbD k hq]
    split <;> simp [*]

theorem bitByte_eq (k : Nat) : bitByte k = k / 8 := Nat.shiftRight_eq_div_pow k 3

/-- Of the bits there are, setting bit `k` changes that one alone. -/
theorem bitAt_putBit (bytes : List Byte) (k : Nat) (v : Bool) (j : Nat) :
    bitAt (Memory.putBit bytes k v) j = (bitAt bytes j).map fun old => if k = j then v else old := by
  rw [bitAt, bitAt, Memory.putBit, bitByte_eq, List.getElem?_modify, Option.map_eq_map, Option.map_map,
    Option.map_map]
  refine congrFun (congrArg Option.map (funext fun b => ?_)) _
  by_cases hj : k / 8 = j / 8
  · have hk : j % 8 = k % 8 ↔ k = j := by omega
    simp [hj, getLsbD_maskedByte b k v (show j % 8 < 8 by omega), hk]
  · have hk : k ≠ j := by rintro rfl; exact hj rfl
    simp [hj, hk]

/-! ## What a write leaves to be read -/

/-- After `PixSet` the target reads the colour, and every other pixel as before. -/
theorem pixSet_read {c : Config} (hn : 1 ≤ c.n) {m : Memory} (hl : m.pixp.length = c.n) (i : Nat) (col : Color) (j : Nat) :
    (m.pixSet c i col).pixp[j]? = if pixTarget c i = some j then some col else m.pixp[j]? := by
  split
  next h => simp [Memory.pixSet, h, hl, pixTarget_lt hn h]
  next h => exact Memory.pixSet_read_other c m col h

/-- After `BitSet` the target reads the value, and every other bit there is as before. -/
theorem bitSet_read (c : Config) (m : Memory) (k : Nat) (v : Bool) (j : Nat) :
    bitAt (m.bitSet c k v).bitp j = (bitAt m.bitp j).map fun old => if bitTarget c k = some j then v else old := by
  obtain ⟨t, ht, e⟩ | ⟨ht, e⟩ := Memory.bitSet_cases c m k v
  · simp [e, ht, bitAt_putBit]
  · simp [e, ht]

/-- Settles O12, by the target of the write. -/
theorem pixSetWritesOnePixel : Obligations.PixSetWritesOnePixel := by
  intro c i col m hn hl
  refine ⟨fun j => ?_, by simp⟩
  simp only [pixSet_read hn hl, pixTarget_eq_some_iff hn]

/-- Settles O13, by the target of the write; an index below `M` is that of a bit there is. -/
theorem bitSetWritesOneBit : Obligations.BitSetWritesOneBit := by
  intro c k v m hm hm8 hl
  refine ⟨fun j => ?_, by simp⟩
  simp only [bitSet_read, bitTarget_eq_some_iff (show 1 ≤ c.m by omega)]
  split
  next h => simp [bitAt_of_lt (show j / 8 < m.bitp.length by omega)]
  next => simp

/-! ## A load, bit by bit -/

/-- The first `n` writes of a load give the bits below `n` the values of the payload and leave the others (20_memory.md R56). -/
theorem foldl_bitSet_eq (c : Config) (bytes : List Byte) (m : Memory) {n : Nat} (hn : n ≤ c.m) :
    ∃ bits, (List.range n).foldl (fun acc k => acc.bitSet c k (packedBit bytes k)) m = { m with bitp := bits } ∧
      ∀ j, bitAt bits j = (bitAt m.bitp j).map fun old => if j < n then packedBit bytes j else old := by
  induction n with
  | zero => exact ⟨m.bitp, rfl, by simp⟩
  | succ n ih =>
    obtain ⟨bits, hfold, hbits⟩ := ih (by omega)
    refine ⟨Memory.putBit bits n (packedBit bytes n), ?_, fun j => ?_⟩
    · rw [List.range_succ, List.foldl_append, hfold]
      simp [Memory.bitSet, bitTarget_inRange (show n < c.m by omega)]
    · rw [bitAt_putBit, hbits, Option.map_map]
      refine congrFun (congrArg Option.map (funext fun old => ?_)) _
      obtain hj | rfl | hj := Nat.lt_trichotomy j n
      · simp only [Function.comp_apply, if_neg (show n ≠ j by omega), if_pos hj, if_pos (show j < n + 1 by omega)]
      · simp only [Function.comp_apply, if_true, if_pos (Nat.lt_add_one j)]
      · simp only [Function.comp_apply, if_neg (show n ≠ j by omega), if_neg (show ¬j < n by omega),
          if_neg (show ¬j < n + 1 by omega)]

/-- Settles O14: the load replaces the array, and the writes in ascending order leave the bits of the payload. -/
theorem bitLoadIsBitSetsInOrder : Obligations.BitLoadIsBitSetsInOrder := by
  intro c bytes m hm8 hbytes hl
  have hload : m.bitLoad bytes = { m with bitp := bytes } := by
    rw [Memory.bitLoad, Memory.loadBytes_eq (hbytes.trans hl.symm)]
  obtain ⟨bits, hfold, hbits⟩ := foldl_bitSet_eq c bytes m (Nat.le_refl c.m)
  have heq : bits = bytes := eq_of_bitAt_eq fun j => by
    rw [hbits]
    obtain hj | hj := Nat.lt_or_ge (j / 8) (c.m / 8)
    · simp [bitAt_of_lt (hl.symm ▸ hj), bitAt_of_lt (hbytes.symm ▸ hj), show j < c.m by omega]
    · simp [bitAt_of_le (hl.symm ▸ hj), bitAt_of_le (hbytes.symm ▸ hj)]
  exact ⟨hload, by rw [hload]; exact heq ▸ hfold⟩

end Sys2Proof.Machine
end

section
/-! PROOFS. What a command leaves of the memories (20_memory.md R60, 43_dispatcher.md R172 to R181): they are what its operations make of
them, so each frame is that of a list of operations. -/

namespace Sys2Proof.Machine

theorem GoodEffect.replay_eq {s : State} {cmd : Command} {ops : List OutOp} {d : Bool} (h : GoodEffect s cmd ops d) (m : Memory) :
    replay s.cfg ops m = replay s.cfg (commandOps s.cfg cmd) m := by
  cases h with
  | operations => rfl
  | marksDirty => rfl
  | reports => rfl

/-- The memories after a command: neither the activity toggle nor a status frame nor the restart request is written to them. -/
theorem exec_mem {i : Instr} {s t : State} (h : exec i s = .next t) : t.mem = replay s.cfg (commandOps s.cfg i.command) s.mem := by
  by_cases hr : i = .binaryR
  · subst hr
    obtain ⟨u, rfl | rfl, rfl⟩ := exec_next_of_reset h <;> simp [replay_append, Instr.command, commandOps]
  · obtain ⟨-, ops, d, hx, rfl⟩ := exec_next_of_ne_reset hr h
    simp [afterCommand, replay_append, hx.replay_eq]

/-! ## Commands that store nothing -/

/-- Latch flushes and commits only (43_dispatcher.md R173), so it leaves what neither of these writes. -/
theorem replay_latch_unchanged {α : Type} (f : Memory → α) (hflush : ∀ m : Memory, f m.pixFlush = f m)
    (hcommit : ∀ m : Memory, f m.bitCommit = f m) (c : Config) (m : Memory) : f (replay c (commandOps c .latch) m) = f m := by
  refine replay_unchanged f (fun op hop => ?_) m
  have hcases : op = .pixFlush ∨ op = .bitCommit := by
    simp only [commandOps, List.mem_append, List.mem_ite_nil_right, List.mem_singleton] at hop
    exact hop.imp And.right And.right
  obtain rfl | rfl := hcases
  · exact hflush
  · exact hcommit

/-- Settles O27: GetState and Reset write no memory, and Latch flushes and commits only. -/
theorem nonStoringCommandsMemoryFrame : Obligations.NonStoringCommandsMemoryFrame := by
  intro s t i h
  have hmem := exec_mem h
  constructor
  · rintro (rfl | rfl | rfl | rfl) <;> exact hmem
  · intro hi
    have hlatch : i.command = .latch := by obtain rfl | rfl := hi <;> rfl
    rw [hmem, hlatch]
    exact ⟨replay_latch_unchanged Memory.pixp (fun _ => rfl) (fun _ => rfl) _ _,
      replay_latch_unchanged Memory.bitp (fun _ => rfl) (fun _ => rfl) _ _, replay_fb _ _ _⟩

/-! ## Pixel commands -/

theorem mem_runOps {idx : Nat} {cols : List Color} {op : OutOp} (h : op ∈ runOps idx cols) :
    ∃ k, k < cols.length ∧ ∃ col, op = .pixSet (idx + k) col := by
  obtain ⟨k, hk, rfl⟩ := List.mem_mapIdx.1 h
  exact ⟨k, hk, _, rfl⟩

section runOps

variable (c : Config) (idx : Nat) (cols : List Color) (m : Memory)

/-- What no pixel write touches, a run of pixel writes does not touch. -/
theorem replay_runOps_unchanged {α : Type} (f : Memory → α)
    (h : ∀ k < cols.length, ∀ (col : Color) (m : Memory), f (m.pixSet c (idx + k) col) = f m) :
    f (replay c (runOps idx cols) m) = f m := by
  refine replay_unchanged f (fun op hop => ?_) m
  obtain ⟨k, hk, col, rfl⟩ := mem_runOps hop
  exact h k hk col

@[simp] theorem replay_runOps_pixv : (replay c (runOps idx cols) m).pixv = m.pixv :=
  replay_runOps_unchanged c idx cols m Memory.pixv (by simp)

@[simp] theorem replay_runOps_bitp : (replay c (runOps idx cols) m).bitp = m.bitp :=
  replay_runOps_unchanged c idx cols m Memory.bitp (by simp)

@[simp] theorem replay_runOps_bitv : (replay c (runOps idx cols) m).bitv = m.bitv :=
  replay_runOps_unchanged c idx cols m Memory.bitv (by simp)

/-- A pixel that is the target of none of the writes reads as before. -/
theorem replay_runOps_read_other {j : Nat} (h : ∀ k < cols.length, pixTarget c (idx + k) ≠ some j) :
    (replay c (runOps idx cols) m).pixp[j]? = m.pixp[j]? :=
  replay_runOps_unchanged c idx cols m (fun m => m.pixp[j]?) fun k hk col m => Memory.pixSet_read_other c m col (h k hk)

/-- ClearLeds is a run of pixel writes and a flush (43_dispatcher.md R174). -/
theorem replay_clearLeds :
    replay c (commandOps c .clearLeds) m = (replay c (runOps 0 (List.replicate c.n Color.dark)) m).pixFlush :=
  replay_append c _ _ m

/-- SetOneLed is one pixel write, and a flush under `AUTO_FLUSH` (43_dispatcher.md R175). -/
theorem replay_setOneLed (led : Nat) (col : Color) :
    replay c (commandOps c (.setOneLed led col)) m =
      if c.autoFlush = true then (m.pixSet c led col).pixFlush else m.pixSet c led col := by
  simp only [commandOps]
  split <;> rfl

end runOps

/-- Settles O28: SetOneLed and ClearLeds may flush, SetBatchLeds writes its run of pixels only. -/
theorem pixelCommandsMemoryFrame : Obligations.PixelCommandsMemoryFrame := by
  intro s t i h
  have hmem := exec_mem h
  refine ⟨fun led col hi => ?setOneLed, fun start cols hi => ?setBatchLeds, fun hi => ?clearLeds⟩
  case setOneLed =>
    have hcmd : i.command = .setOneLed led col := by obtain rfl | rfl | rfl := hi <;> rfl
    rw [hmem, hcmd, replay_setOneLed]
    have hread (j : Nat) (hj : pixTarget s.cfg led ≠ some j) := Memory.pixSet_read_other s.cfg s.mem col hj
    split
    next hflush => simpa [hflush] using hread
    next => simpa using hread
  case setBatchLeds =>
    subst hi
    rw [hmem, show commandOps s.cfg (Instr.binaryB start cols).command = runOps start cols from rfl]
    exact ⟨by simp, by simp, by simp, by simp, fun j hj => replay_runOps_read_other s.cfg start cols s.mem hj⟩
  case clearLeds =>
    have hcmd : i.command = .clearLeds := by obtain rfl | rfl | rfl := hi <;> rfl
    rw [hmem, hcmd, replay_clearLeds]
    simp

/-! ## Bit commands -/

/-- Settles O29: SetArrayBit is one `BitSet`, SetArray one `BitLoad`. -/
theorem bitCommandsMemoryFrame : Obligations.BitCommandsMemoryFrame := by
  intro s t i h
  have hmem := exec_mem h
  refine ⟨fun bit hi => ?setArrayBit, fun bytes hi => ?setArray⟩
  case setArrayBit =>
    have hset : ∃ v, t.mem = s.mem.bitSet s.cfg bit v := by
      obtain rfl | rfl := hi
      · exact ⟨false, hmem⟩
      · exact ⟨true, hmem⟩
    obtain ⟨v, hv⟩ := hset
    rw [hv]
    exact ⟨by simp, by simp, by simp, by simp, fun j hj => by simp [bitSet_read, hj]⟩
  case setArray =>
    subst hi
    have hload : t.mem = s.mem.bitLoad bytes := hmem
    simp [hload]

end Sys2Proof.Machine
end

section
/-! PROOFS. What the decoder accepts (30_encoding.md R84 to R91): a well-formed instruction, its row's first byte, and a rest that
spells its operands. -/

namespace Sys2Proof

open Laws.FrameShape (rowMatch flatMap_colorBytes_length)

/-- The bytes after the first one spell the operands of the instruction: a text line may have a tail after the letter where
`TEXT_TRAILING` lets it and may spell its numbers in several ways; a binary packet is the encoding, byte for byte. -/
def Spells (c : Config) (tail : List Byte) : Instr → Prop
  | .textAG | .textAL | .textAC | .textBS | .textBX => tail = [] ∨ c.textTrailing ≠ .malformed
  | .textAO led col | .textBL led col => decodeSetPixel c tail = .ok (led, col)
  | i => tail = (encode i).tail

/-- A frame that carries the instruction in its protocol: its row's first byte, its sink present, its operands in range and spelled. -/
structure Carries (c : Config) (op : Byte) (tail : List Byte) (i : Instr) : Prop where
  op : op = rowMatch i
  sink : i.sinkPresent c = true
  range : i.operandsOk c = true
  tail : Spells c tail i

theorem Instr.wf_iff {c : Config} {i : Instr} :
    i.wf c = true ↔ i.proto = c.proto ∧ i.sinkPresent c = true ∧ i.operandsOk c = true := by
  simp [Instr.wf, and_assoc]

/-! ## The parts of the decoders -/

theorem noOperand_eq_ok_iff {c : Config} {tail : List Byte} {i j : Instr} :
    noOperand c tail i = .ok j ↔ (tail = [] ∨ c.textTrailing ≠ .malformed) ∧ i = j := by
  unfold noOperand
  split
  next h => simp [h.1, h.2]
  next h =>
    have ht : tail = [] ∨ c.textTrailing ≠ .malformed := (Decidable.not_and_iff_not_or_not.1 h).imp_left Decidable.not_not.1
    rw [Except.ok.injEq, and_iff_right ht]

theorem setPixel_eq_ok_iff {c : Config} {operands : List Byte} {mk : Nat → Color → Instr} {i : Instr} :
    setPixel c operands mk = .ok i ↔ ∃ led col, decodeSetPixel c operands = .ok (led, col) ∧ mk led col = i := by
  unfold setPixel
  split
  next e h => simp [h]
  next led col h =>
    rw [h, Except.ok.injEq]
    constructor
    · exact fun hi => ⟨led, col, rfl, hi⟩
    · rintro ⟨_, _, hd, hi⟩
      cases hd
      exact hi

theorem decodeSetPixel_led_le {c : Config} {operands : List Byte} {led : Nat} {col : Color}
    (h : decodeSetPixel c operands = .ok (led, col)) : led ≤ 255 := by
  simp only [decodeSetPixel] at h
  split at h
  next => cases h
  split at h
  next => cases h
  split at h
  next => cases h
  next hled =>
    split at h
    next => cases h
    next =>
      cases h
      exact field_le hled

/-- A field without a sign, with a digit and within its range, is its magnitude (41_text_commands.md R132). -/
theorem field_of_le (c : Config) {v nd max : Nat} (rest : List Byte) (hd : nd ≠ 0) (hv : v ≤ max) :
    field c ⟨false, v, nd, rest⟩ max = .ok v := by
  simp [field, hd, Nat.not_lt.2 hv]

/-- The operands of a set-pixel line in their shortest spelling (30_encoding.md R85). -/
theorem decodeSetPixel_setPixelText (c : Config) {led : Nat} (h : led ≤ 255) (col : Color) :
    decodeSetPixel c (setPixelText led col) = .ok (led, col) := by
  have digits (v : Nat) : (dec v).length ≠ 0 := by simp [dec_ne_nil]
  have scans := decodeSetPixel_scans c (rest := []) (.inl rfl) (.inl rfl) (dec_allDigits led) (dec_allDigits (natOfColor col)) rfl
    fun _ => by decide
  simpa [setPixelText, digitsValue_dec, field_of_le c _ (digits _) h, field_of_le c _ (digits _) (natOfColor_lt col),
    colorOfNat_natOfColor] using scans

theorem toNat_ofNat_of_le {k : Nat} (h : k ≤ 255) : (BitVec.ofNat 8 k).toNat = k := by
  rw [BitVec.toNat_ofNat, Nat.mod_eq_of_lt (by omega)]

theorem toNat_le (b : Byte) : b.toNat ≤ 255 := by
  have := b.isLt
  omega

/-! ## The three opcode maps -/

theorem decodeTextA_eq_ok_iff {c : Config} {op : Byte} {tail : List Byte} {i : Instr} :
    decodeTextA c op tail = .ok i ↔ i.proto = .textA ∧ Carries c op tail i := by
  constructor
  · intro h
    unfold decodeTextA at h
    split at h
    next hG =>
      obtain ⟨ht, rfl⟩ := noOperand_eq_ok_iff.1 h
      exact ⟨rfl, hG, rfl, rfl, ht⟩
    split at h
    next hL =>
      obtain ⟨ht, rfl⟩ := noOperand_eq_ok_iff.1 h
      exact ⟨rfl, hL, rfl, rfl, ht⟩
    split at h
    next hC =>
      obtain ⟨ht, rfl⟩ := noOperand_eq_ok_iff.1 h
      exact ⟨rfl, hC.1, hC.2, rfl, ht⟩
    split at h
    next hO =>
      obtain ⟨led, col, hd, rfl⟩ := setPixel_eq_ok_iff.1 h
      exact ⟨rfl, hO.1, hO.2, decide_eq_true (decodeSetPixel_led_le hd), hd⟩
    cases h
  · rintro ⟨hp, rfl, hs, -, ht⟩
    cases i with
    | textAG | textAL => exact noOperand_eq_ok_iff.2 ⟨ht, rfl⟩
    | textAC =>
      replace hs : c.hasPixels = true := hs
      simpa [decodeTextA, rowMatch, chG, chL, chC, hs, noOperand_eq_ok_iff, Spells] using ht
    | textAO led col =>
      replace hs : c.hasPixels = true := hs
      simpa [decodeTextA, rowMatch, chG, chL, chC, chO, hs, setPixel_eq_ok_iff, Spells] using ht
    | _ => cases hp

theorem decodeTextB_eq_ok_iff {c : Config} {op : Byte} {tail : List Byte} {i : Instr} :
    decodeTextB c op tail = .ok i ↔ i.proto = .textB ∧ Carries c op tail i := by
  constructor
  · intro h
    unfold decodeTextB at h
    split at h
    next hS =>
      obtain ⟨ht, rfl⟩ := noOperand_eq_ok_iff.1 h
      exact ⟨rfl, hS, rfl, rfl, ht⟩
    split at h
    next hX =>
      obtain ⟨ht, rfl⟩ := noOperand_eq_ok_iff.1 h
      exact ⟨rfl, hX.1, hX.2, rfl, ht⟩
    split at h
    next hL =>
      obtain ⟨led, col, hd, rfl⟩ := setPixel_eq_ok_iff.1 h
      exact ⟨rfl, hL.1, hL.2, decide_eq_true (decodeSetPixel_led_le hd), hd⟩
    cases h
  · rintro ⟨hp, rfl, hs, -, ht⟩
    cases i with
    | textBS => exact noOperand_eq_ok_iff.2 ⟨ht, rfl⟩
    | textBX =>
      replace hs : c.hasPixels = true := hs
      simpa [decodeTextB, rowMatch, chS, chX, hs, noOperand_eq_ok_iff, Spells] using ht
    | textBL led col =>
      replace hs : c.hasPixels = true := hs
      simpa [decodeTextB, rowMatch, chS, chX, chL, hs, setPixel_eq_ok_iff, Spells] using ht
    | _ => cases hp

theorem decodeBinary_eq_ok_iff {c : Config} {op : Byte} {payload : List Byte} {i : Instr} :
    decodeBinary c op payload = .ok i ↔ i.proto = .binary ∧ Carries c op payload i := by
  constructor
  · intro h
    unfold decodeBinary at h
    split at h
    next hG =>
      obtain ⟨ht, rfl⟩ := Machine.noPayload_eq_ok_iff.1 h
      exact ⟨rfl, hG, rfl, rfl, ht⟩
    split at h
    next hL =>
      obtain ⟨ht, rfl⟩ := Machine.noPayload_eq_ok_iff.1 h
      exact ⟨rfl, hL, rfl, rfl, ht⟩
    split at h
    next hC =>
      obtain ⟨ht, rfl⟩ := Machine.noPayload_eq_ok_iff.1 h
      exact ⟨rfl, hC.1, hC.2, rfl, ht⟩
    split at h
    next hO =>
      split at h
      next led r g b =>
        cases h
        exact ⟨rfl, hO.1, hO.2, decide_eq_true (toNat_le led), by simp [Spells, encode, colorBytes]⟩
      next => cases h
    split at h
    next hB =>
      split at h
      next start rgb =>
        split at h
        next hlen =>
          cases h
          obtain ⟨hrgb, hcount⟩ := flatMap_triples rgb hlen.2
          refine ⟨rfl, hB.1, hB.2, ?_, by simp [Spells, encode, hrgb]⟩
          simp only [Instr.operandsOk, hcount, Bool.and_eq_true, decide_eq_true_eq]
          exact ⟨toNat_le start, by omega⟩
        next => cases h
      next => cases h
    split at h
    next hA =>
      split at h
      next hlen =>
        cases h
        exact ⟨rfl, hA.1, hA.2, decide_eq_true (by omega), rfl⟩
      next => cases h
    split at h
    next h0 =>
      split at h
      next bit =>
        cases h
        exact ⟨rfl, h0.1, h0.2, decide_eq_true (toNat_le bit), by simp [Spells, encode]⟩
      next => cases h
    split at h
    next h1 =>
      split at h
      next bit =>
        cases h
        exact ⟨rfl, h1.1, h1.2, decide_eq_true (toNat_le bit), by simp [Spells, encode]⟩
      next => cases h
    split at h
    next hR =>
      obtain ⟨ht, rfl⟩ := Machine.noPayload_eq_ok_iff.1 h
      exact ⟨rfl, hR, rfl, rfl, ht⟩
    cases h
  · rintro ⟨hp, rfl, hs, hr, ht⟩
    cases i with
    | binaryG | binaryL => exact Machine.noPayload_eq_ok_iff.2 ⟨ht, rfl⟩
    | binaryC =>
      replace hs : c.hasPixels = true := hs
      simpa [decodeBinary, rowMatch, chG, chL, chC, hs, Machine.noPayload_eq_ok_iff, Spells, encode] using ht
    | binaryO led col =>
      replace hs : c.hasPixels = true := hs
      obtain rfl : payload = BitVec.ofNat 8 led :: colorBytes col := ht
      have hled := toNat_ofNat_of_le (of_decide_eq_true hr)
      simp [decodeBinary, rowMatch, colorBytes, chG, chL, chC, chO, hs, hled, -BitVec.toNat_ofNat]
    | binaryB start cols =>
      replace hs : c.hasPixels = true := hs
      obtain rfl : payload = BitVec.ofNat 8 start :: cols.flatMap colorBytes := ht
      obtain ⟨hstart, hcount⟩ : start ≤ 255 ∧ 1 ≤ cols.length := by simpa [Instr.operandsOk] using hr
      have hlen : 5 ≤ 2 + 3 * cols.length := by omega
      simp [decodeBinary, rowMatch, chG, chL, chC, chO, chB, hs, hlen, toNat_ofNat_of_le hstart, flatMap_colorBytes_length,
        triples_flatMap, -BitVec.toNat_ofNat, -List.length_flatMap]
    | binaryA bytes =>
      replace hs : c.hasBitarray = true := hs
      obtain rfl : payload = bytes := ht
      have hlen : payload.length = c.m / 8 := of_decide_eq_true hr
      simp [decodeBinary, rowMatch, chG, chL, chC, chO, chB, chA, hs, hlen]
    | binary0 bit =>
      replace hs : c.hasBitarray = true := hs
      obtain rfl : payload = [BitVec.ofNat 8 bit] := ht
      have hbit := toNat_ofNat_of_le (of_decide_eq_true hr)
      simp [decodeBinary, rowMatch, chG, chL, chC, chO, chB, chA, ch0, hs, hbit, -BitVec.toNat_ofNat]
    | binary1 bit =>
      replace hs : c.hasBitarray = true := hs
      obtain rfl : payload = [BitVec.ofNat 8 bit] := ht
      have hbit := toNat_ofNat_of_le (of_decide_eq_true hr)
      simp [decodeBinary, rowMatch, chG, chL, chC, chO, chB, chA, ch0, ch1, hs, hbit, -BitVec.toNat_ofNat]
    | binaryR => exact Machine.decodeBinary_eq_reset_iff.2 ⟨rfl, ht⟩
    | _ => cases hp

/-- What decodes is an instruction of the active protocol that the frame carries, in each of the three (30_encoding.md R91). -/
theorem decode_cons_eq_ok_iff {c : Config} {op : Byte} {tail : List Byte} {i : Instr} :
    decode c (op :: tail) = .ok i ↔ i.proto = c.proto ∧ Carries c op tail i := by
  cases hp : c.proto with
  | textA => simpa [decode, hp] using decodeTextA_eq_ok_iff
  | textB => simpa [decode, hp] using decodeTextB_eq_ok_iff
  | binary => simpa [decode, hp] using decodeBinary_eq_ok_iff

/-- The frame of an instruction is its row's first byte and a spelling of its operands. -/
theorem encode_carries {c : Config} {i : Instr} (hs : i.sinkPresent c = true) (hr : i.operandsOk c = true) :
    Carries c (rowMatch i) (encode i).tail i := by
  refine ⟨rfl, hs, hr, ?_⟩
  cases i with
  | textAG | textAL | textAC | textBS | textBX => exact .inl rfl
  | textAO led col | textBL led col => exact decodeSetPixel_setPixelText c (of_decide_eq_true hr) col
  | binaryG | binaryL | binaryC | binaryO | binaryB | binaryA | binary0 | binary1 | binaryR => rfl

theorem encode_eq_cons (i : Instr) : encode i = rowMatch i :: (encode i).tail := by
  cases i <;> rfl

/-- Settles O1: the frame of a well-formed instruction carries it. -/
theorem decodeEncodeRoundTrip : Obligations.DecodeEncodeRoundTrip := by
  intro c i hw
  obtain ⟨hp, hs, hr⟩ := Instr.wf_iff.1 hw
  rw [encode_eq_cons]
  exact decode_cons_eq_ok_iff.2 ⟨hp, encode_carries hs hr⟩

/-- Settles O3: the empty frame decodes to nothing, and what another frame carries is well-formed. -/
theorem decodedInstrIsWellFormed : Obligations.DecodedInstrIsWellFormed := by
  intro c f i h
  cases f with
  | nil => cases h
  | cons op tail =>
    obtain ⟨hp, -, hs, hr, -⟩ := decode_cons_eq_ok_iff.1 h
    exact Instr.wf_iff.2 ⟨hp, hs, hr⟩

/-- Settles O5: every test of the protocol's opcode map fails. -/
theorem illegalFirstByteIsMalformed : Obligations.IllegalFirstByteIsMalformed := by
  intro c op tail
  refine ⟨rfl, ?textA, ?textB, ?binary⟩
  case textA =>
    intro hp hG hL hpix
    have hC : ¬(op = chC ∧ c.hasPixels = true) := fun h => (hpix h.2).1 h.1
    have hO : ¬(op = chO ∧ c.hasPixels = true) := fun h => (hpix h.2).2 h.1
    simp only [decode, hp, decodeTextA, if_neg hC, if_neg hO]
    exact (if_neg hG).trans (if_neg hL)
  case textB =>
    intro hp hS hpix
    have hX : ¬(op = chX ∧ c.hasPixels = true) := fun h => (hpix h.2).1 h.1
    have hL : ¬(op = chL ∧ c.hasPixels = true) := fun h => (hpix h.2).2 h.1
    simp only [decode, hp, decodeTextB, if_neg hX, if_neg hL]
    exact if_neg hS
  case binary =>
    intro hp hG hL hR hpix hbit
    have hC : ¬(op = chC ∧ c.hasPixels = true) := fun h => (hpix h.2).1 h.1
    have hO : ¬(op = chO ∧ c.hasPixels = true) := fun h => (hpix h.2).2.1 h.1
    have hB : ¬(op = chB ∧ c.hasPixels = true) := fun h => (hpix h.2).2.2 h.1
    have hA : ¬(op = chA ∧ c.hasBitarray = true) := fun h => (hbit h.2).1 h.1
    have h0 : ¬(op = ch0 ∧ c.hasBitarray = true) := fun h => (hbit h.2).2.1 h.1
    have h1 : ¬(op = ch1 ∧ c.hasBitarray = true) := fun h => (hbit h.2).2.2 h.1
    simp only [decode, hp, decodeBinary, if_neg hC, if_neg hO, if_neg hB, if_neg hA, if_neg h0, if_neg h1]
    exact (if_neg hG).trans <| (if_neg hL).trans <| if_neg hR

end Sys2Proof
end

section
/-! PROOFS. A frame arriving (30_encoding.md R80, R91; 40_frame_reader.md R112 to R119): what the step of a data byte, of a terminator and of
a packet answers, and a line fed byte by byte. -/

namespace Sys2Proof.Machine

theorem run_one (M : Host.Core) (s : M.State) : M.run 1 s = M.step s := by
  simp only [Host.Core.run]
  cases M.step s <;> rfl

theorem run_succ_of_step {M : Host.Core} {s t : M.State} (h : M.step s = .next t) (k : Nat) : M.run (k + 1) s = M.run k t := by
  rw [Host.Core.run, h]

/-! ## The events of a frame -/

section
variable {s : State} {rest : List Event} (hw : s.cfg.wf = true) (hh : s.halted = false)
include hw hh

theorem step_dataByte {b : Byte} {now : Word32} (ht : s.cfg.isText = true) (hb : b ≠ chLF) (hi : s.inputs = .rxByte b now :: rest) :
    step s = .next (storeByte b ((s.setInputs rest).setNow now)) := by
  simp [step_of_cons hw hi, handle, hh, ht, rxByte, hb]

theorem step_terminator {now : Word32} (ht : s.cfg.isText = true) (hi : s.inputs = .rxByte chLF now :: rest) :
    step s = finishFrame (lineResult s) (clearReader ((s.setInputs rest).setNow now)) := by
  simp only [step_of_cons hw hi, handle, State.setInputs_halted, State.setInputs_cfg, hh, ht, rxByte, Bool.false_eq_true, if_true,
    if_false]
  rfl

theorem step_packet {p : List Byte} {now : Word32} (hp : s.cfg.proto = .binary) (hl : p.length ≤ s.cfg.pktMax)
    (hi : s.inputs = .packet p now :: rest) : step s = finishFrame (decode s.cfg p) ((s.setInputs rest).setNow now) := by
  simp [step_of_cons hw hi, handle, hh, isText_eq_false hp, hl, rxPacket]

end

/-! ## A line -/

/-- `s` after a data byte of a line that still fits (40_frame_reader.md R113). -/
def afterByte (b : Byte) (now : Word32) (rest : List Event) (s : State) : State :=
  { s with
    mem := { s.mem with fb := s.mem.fb.set s.cur b }
    cur := s.cur + 1, ovf := s.ovf || decide (s.cur + 1 = s.cfg.cap), now := now, inputs := rest }

theorem storeByte_eq_afterByte {s : State} (h : s.cur < s.cfg.cap) (b : Byte) (now : Word32) (rest : List Event) :
    storeByte b ((s.setInputs rest).setNow now) = afterByte b now rest s := by
  rw [storeByte_eq]
  exact if_pos h

/-- `s` after the data bytes `f` and the terminator of a line that fits, its frame not yet completed: the bytes stored from the cursor on,
the reader cleared (40_frame_reader.md R113, R114). -/
def afterLine (f : List Byte) (now : Word32) (rest : List Event) (s : State) : State :=
  { s with
    mem := { s.mem with fb := s.mem.fb.take s.cur ++ f ++ s.mem.fb.drop (s.cur + f.length) }
    cur := 0, ovf := false, now := now, inputs := rest }

theorem afterLine_nil (now : Word32) (rest : List Event) (s : State) :
    afterLine [] now rest s = clearReader ((s.setInputs rest).setNow now) := by
  simp only [afterLine, List.append_nil, List.length_nil, Nat.add_zero, List.take_append_drop]
  rfl

/-- From an empty reader the line stands at the start of the buffer. -/
theorem afterLine_of_cur_eq_zero {s : State} (h : s.cur = 0) (f : List Byte) (now : Word32) (rest : List Event) :
    afterLine f now rest s = { s with
      mem := { s.mem with fb := f ++ s.mem.fb.drop f.length }, cur := 0, ovf := false, now := now, inputs := rest } := by
  simp [afterLine, h]

theorem take_succ_set {fb : List Byte} {k : Nat} (h : k < fb.length) (b : Byte) : (fb.set k b).take (k + 1) = fb.take k ++ [b] := by
  rw [List.take_add_one, List.getElem?_set_self h, List.take_set_of_le (Nat.le_refl k), Option.toList_some]

/-- A data byte taken before a line is the first byte of the longer line. -/
theorem afterLine_afterByte {s : State} (h : s.cur < s.mem.fb.length) (b : Byte) (t : Word32) (es : List Event) (f : List Byte)
    (now : Word32) (rest : List Event) : afterLine f now rest (afterByte b t es s) = afterLine (b :: f) now rest s := by
  have hlen : s.cur + 1 + f.length = s.cur + (f.length + 1) := by omega
  have hlt : s.cur < s.cur + (f.length + 1) := by omega
  simp [afterLine, afterByte, take_succ_set h, List.drop_set_of_lt hlt, hlen]

/-- A line that fits, fed byte by byte: the terminator completes the frame of the bytes stored before and of those fed. -/
theorem run_line (line : List (Byte × Word32)) {s : State} {now : Word32} {rest : List Event} (hw : s.cfg.wf = true)
    (ht : s.cfg.isText = true) (hh : s.halted = false) (ho : s.ovf = false) (hfb : s.mem.fb.length = s.cfg.cap)
    (hfit : s.cur + line.length < s.cfg.cap) (hdata : ∀ x ∈ line, x.1 ≠ chLF)
    (hi : s.inputs = byteEvents line ++ .rxByte chLF now :: rest) :
    core.run (line.length + 1) s =
      finishFrame (decode s.cfg (s.mem.fb.take s.cur ++ line.map Prod.fst)) (afterLine (line.map Prod.fst) now rest s) := by
  induction line generalizing s with
  | nil =>
    have hline : lineResult s = decode s.cfg (s.mem.fb.take s.cur) := by rw [lineResult, ho]; rfl
    rw [List.map_nil, List.append_nil, afterLine_nil, ← hline]
    exact (run_one core s).trans (step_terminator hw hh ht hi)
  | cons x line ih =>
    obtain ⟨b, t⟩ := x
    obtain ⟨hb, hdata⟩ := List.forall_mem_cons.1 hdata
    rw [List.length_cons] at hfit
    have hcur : s.cur < s.cfg.cap := by omega
    have hfull : s.cur + 1 ≠ s.cfg.cap := by omega
    have hstep := (step_dataByte hw hh ht hb hi).trans (congrArg _ (storeByte_eq_afterByte hcur b t _))
    have hrest := ih (s := afterByte b t _ s) hw ht hh (by simp [afterByte, ho, hfull]) (by simp [afterByte, hfb])
      (by simp only [afterByte]; omega) hdata rfl
    rw [afterLine_afterByte (hfb ▸ hcur), afterByte, take_succ_set (hfb ▸ hcur), List.append_assoc] at hrest
    exact (run_succ_of_step (M := core) hstep _).trans hrest

/-! ## The bytes of a text frame -/

theorem encode_text_ne_terminator {i : Instr} (h : i.proto ≠ .binary) : ∀ b ∈ encode i, b ≠ chLF := by
  have digits (v : Nat) : ∀ b ∈ dec v, b ≠ chLF := fun b hb => (digit_ne (dec_allDigits v b hb)).2.2
  have pixel (led : Nat) (col : Color) : ∀ b ∈ setPixelText led col, b ≠ chLF :=
    List.forall_mem_append.2 ⟨digits led, List.forall_mem_cons.2 ⟨by decide, digits _⟩⟩
  cases i with
  | textAG | textAL | textAC | textBS | textBX => simp only [encode]; decide
  | textAO led col | textBL led col => exact List.forall_mem_cons.2 ⟨by decide, pixel led col⟩
  | binaryG | binaryL | binaryC | binaryO | binaryB | binaryA | binary0 | binary1 | binaryR => exact absurd rfl h

/-- Settles O51: the framing hands the decoder the encoding, and the round trip gives the instruction back. -/
theorem arrivingFrameExecutesItsInstr : Obligations.ArrivingFrameExecutesItsInstr := by
  intro s i frame now rest hInv hh hwf hframe
  obtain ⟨hw, ⟨hfb, -⟩, -, hovf, -⟩ := hInv
  have hdec : decode s.cfg (encode i) = .ok i := decodeEncodeRoundTrip s.cfg i hwf
  have hlen : frame.length = (encode i).length := by rw [← hframe, List.length_map]
  refine ⟨fun hp hcur hfit hi => ?text, fun hp hl hi => ?packet⟩
  case text =>
    have hproto : i.proto ≠ .binary := (Instr.wf_iff.1 hwf).1 ▸ hp
    have hdata : ∀ x ∈ frame, x.1 ≠ chLF := fun x hx =>
      encode_text_ne_terminator hproto _ (hframe ▸ List.mem_map_of_mem hx)
    have ho : s.ovf = false := by
      rw [← Bool.not_eq_true, hovf]
      omega
    have hrun := run_line frame hw (isText_iff.2 hp) hh ho hfb (by omega) hdata hi
    rw [hcur, List.take_zero, List.nil_append, hframe, hdec, afterLine_of_cur_eq_zero hcur, ← hlen] at hrun
    exact hrun
  case packet =>
    have hstep := step_packet hw hh hp (hlen ▸ hl) hi
    rw [hdec] at hstep
    exact (run_one core s).trans hstep

end Sys2Proof.Machine
end

section
/-! PROOFS. The Frame Reader (40_frame_reader.md R112 to R120): the step of a data byte, of a packet and of a terminator; a line of any
length, whole or overflowed; and any bytes, one frame for each terminator. -/

namespace Sys2Proof.Machine

/-! ## One event -/

/-- Settles O30: the packet is handed to the decoder, and what it decodes to is executed. -/
theorem packetStepRunsDecodedInstr : Obligations.PacketStepRunsDecodedInstr := by
  intro s p now rest i hw hp hh hi hl hdec
  rw [step_packet hw hh hp hl hi, hdec]
  rfl

theorem lineResult_of_not_ovf {s : State} (h : s.ovf = false) : lineResult s = decode s.cfg (s.mem.fb.take s.cur) := by
  rw [lineResult, h]
  rfl

theorem lineResult_of_ovf {s : State} (h : s.ovf = true) : lineResult s = .error .frameOverflow := by
  rw [lineResult, h]
  rfl

/-- Settles O31: a line that did not overflow is handed to the decoder, and what it decodes to is executed. -/
theorem terminatorStepRunsDecodedInstr : Obligations.TerminatorStepRunsDecodedInstr := by
  intro s now rest i hw hp hh hi ho hdec
  rw [step_terminator hw hh (isText_iff.2 hp) hi, lineResult_of_not_ovf ho, hdec]
  rfl

/-- At `CAP` a data byte is discarded (40_frame_reader.md R113). -/
theorem storeByte_eq_of_full {s : State} (h : ¬s.cur < s.cfg.cap) (b : Byte) (now : Word32) (rest : List Event) :
    storeByte b ((s.setInputs rest).setNow now) = (s.setInputs rest).setNow now := by
  rw [storeByte_eq]
  exact if_neg h

/-- Settles O32, on both sides of `CAP`. -/
theorem dataByteIsStoredOrDiscarded : Obligations.DataByteIsStoredOrDiscarded := by
  intro s b now rest hw hp hh hi hb
  rw [step_dataByte hw hh (isText_iff.2 hp) hb hi]
  refine ⟨fun hlt => ?stored, fun hfull => ?discarded⟩
  case stored =>
    have hovf : (s.ovf || decide (s.cur + 1 = s.cfg.cap)) = if s.cur + 1 = s.cfg.cap then true else s.ovf := by
      split <;> simp [*]
    rw [storeByte_eq_afterByte hlt, afterByte, hovf]
  case discarded =>
    rw [storeByte_eq_of_full hfull]
    rfl

/-! ## A line -/

/-- A core with a text protocol never halts: `halted` exists in Binary alone (40_frame_reader.md R111). -/
theorem State.Inv.not_halted {s : State} (h : s.Inv) (ht : s.cfg.isText = true) : s.halted = false := by
  obtain ⟨-, -, -, -, hact, -⟩ := h
  exact (hact (isText_iff.1 ht)).2

theorem finishFrame_error {s : State} (hb : s.badRx ≠ 0xFFFFFFFF#32) (e : MalformedCause) :
    finishFrame (.error e) s = .next (afterBad s) := by
  obtain ⟨-, h⟩ | ⟨htop, -⟩ := takeMalformed_cases s
  · exact h
  · exact absurd htop hb

theorem byteEvents_cons (b : Byte) (now : Word32) (bytes : List (Byte × Word32)) :
    byteEvents ((b, now) :: bytes) = .rxByte b now :: byteEvents bytes := rfl

/-- A line that reaches `CAP`, fed byte by byte: the bytes that fit are stored, the others discarded, and the terminator finalizes an
overflow without asking the decoder. -/
theorem run_overflowing_line (line : List (Byte × Word32)) {s : State} {now : Word32} {rest : List Event} (h : s.Inv)
    (ht : s.cfg.isText = true) (hlong : s.cfg.cap ≤ s.cur + line.length) (hdata : ∀ x ∈ line, x.1 ≠ chLF)
    (hi : s.inputs = byteEvents line ++ .rxByte chLF now :: rest) :
    core.run (line.length + 1) s =
      finishFrame (.error .frameOverflow) (afterLine ((line.map Prod.fst).take (s.cfg.cap - s.cur)) now rest s) := by
  induction line generalizing s with
  | nil =>
    obtain ⟨hw, -, hle, hovf, -⟩ := id h
    have ho : s.ovf = true := hovf.2 (Nat.le_antisymm hle hlong)
    rw [List.map_nil, List.take_nil, afterLine_nil, ← lineResult_of_ovf ho]
    exact (run_one core s).trans (step_terminator hw (h.not_halted ht) ht hi)
  | cons x line ih =>
    obtain ⟨b, t⟩ := x
    obtain ⟨hb, hdata⟩ := List.forall_mem_cons.1 hdata
    obtain ⟨hw, ⟨hfb, -⟩, -⟩ := id h
    rw [List.length_cons] at hlong
    rw [byteEvents_cons, List.cons_append] at hi
    generalize hes : byteEvents line ++ .rxByte chLF now :: rest = es at hi
    have hstep := step_dataByte hw (h.not_halted ht) ht hb hi
    have hnext := ((h.setInputs es).setNow t).storeByte ht b
    by_cases hcur : s.cur < s.cfg.cap
    · rw [storeByte_eq_afterByte hcur] at hstep hnext
      have hroom : s.cfg.cap - s.cur = s.cfg.cap - (s.cur + 1) + 1 := by omega
      have hrest := ih hnext ht (by simp only [afterByte]; omega) hdata hes.symm
      rw [afterLine_afterByte (hfb ▸ hcur)] at hrest
      rw [List.map_cons, hroom, List.take_succ_cons]
      exact (run_succ_of_step (M := core) hstep _).trans hrest
    · rw [storeByte_eq_of_full hcur] at hstep hnext
      have hnone (l : List Byte) : l.take (s.cfg.cap - s.cur) = [] := by
        rw [Nat.sub_eq_zero_of_le (Nat.not_lt.1 hcur), List.take_zero]
      have hrest : core.run (line.length + 1) ((s.setInputs es).setNow t) =
          finishFrame _ (afterLine ((line.map Prod.fst).take (s.cfg.cap - s.cur)) now rest s) :=
        ih hnext ht (show s.cfg.cap ≤ s.cur + line.length by omega) hdata hes.symm
      rw [hnone] at hrest ⊢
      exact (run_succ_of_step (M := core) hstep _).trans hrest

/-- From an empty reader the bytes of a line that fit stand at the start of the buffer. -/
theorem afterLine_take_cap {s : State} (hcur : s.cur = 0) (hfb : s.mem.fb.length = s.cfg.cap) (f : List Byte) (now : Word32)
    (rest : List Event) :
    afterLine (f.take s.cfg.cap) now rest s = { s with
      mem := { s.mem with fb := f.take s.cfg.cap ++ s.mem.fb.drop f.length }, cur := 0, ovf := false, now := now, inputs := rest } := by
  have hdrop : s.mem.fb.drop (f.take s.cfg.cap).length = s.mem.fb.drop f.length := by
    rw [List.length_take]
    obtain hle | hle := Nat.le_total s.cfg.cap f.length
    · rw [Nat.min_eq_left hle, List.drop_of_length_le (Nat.le_of_eq hfb), List.drop_of_length_le (hfb ▸ hle)]
    · rw [Nat.min_eq_right hle]
  rw [afterLine_of_cur_eq_zero hcur, hdrop]

/-- Settles O50: a line below `CAP` is decoded whole, a longer one is an overflow. -/
theorem fedLineIsOneFrame : Obligations.FedLineIsOneFrame := by
  intro s line now rest hInv hp hcur hdata hb hi f s'
  have ht : s.cfg.isText = true := isText_iff.2 hp
  obtain ⟨hw, ⟨hfb, -⟩, -, hovf, -⟩ := id hInv
  have hlen : f.length = line.length := List.length_map ..
  have hs' : afterLine (f.take s.cfg.cap) now rest s = s' := afterLine_take_cap hcur hfb f now rest
  have hwhole (hfit : f.length < s.cfg.cap) : core.run (line.length + 1) s = finishFrame (decode s.cfg f) s' := by
    have ho : s.ovf = false := by
      rw [← Bool.not_eq_true, hovf]
      omega
    have hrun := run_line line hw ht (hInv.not_halted ht) ho hfb (by omega) hdata hi
    rw [hcur, List.take_zero, List.nil_append] at hrun
    rwa [← hs', List.take_of_length_le (Nat.le_of_lt hfit)]
  refine ⟨fun i hfit hdec => ?good, fun e hfit hdec => ?bad, fun hlong => ?overflow⟩
  case good =>
    rw [hwhole hfit, hdec]
    rfl
  case bad =>
    rw [hwhole hfit, hdec]
    exact finishFrame_error (s := s') hb e
  case overflow =>
    have hrun := run_overflowing_line line hInv ht (by omega) hdata hi
    rw [hcur, Nat.sub_zero] at hrun
    exact (hrun.trans (congrArg _ hs')).trans (finishFrame_error (s := s') hb _)

/-! ## Any bytes -/

/-- Below the top of both counters every frame completes, good or bad. -/
theorem finishFrame_completes {s : State} (hc : s.cmdRx ≠ 0xFFFFFFFF#32) (hb : s.badRx ≠ 0xFFFFFFFF#32)
    (d : Except MalformedCause Instr) : ∃ t, finishFrame d s = .next t := by
  cases d with
  | ok i => exact (commandsCompleteBelowCounterTop s i).1 hc
  | error e => exact ⟨_, finishFrame_error hb e⟩

theorem terminators_cons (x : Byte × Word32) (bytes : List (Byte × Word32)) :
    terminators (x :: bytes) = terminators [x] + terminators bytes := by
  rw [← List.singleton_append, terminators, List.filter_append, List.length_append]
  rfl

theorem terminators_singleton (b : Byte) (now : Word32) : terminators [(b, now)] = if b = chLF then 1 else 0 := by
  by_cases h : b = chLF <;> simp [terminators, h]

section
variable {s : State} {b : Byte} {now : Word32} {rest : List Event} (h : s.Inv) (ht : s.cfg.isText = true)
  (hi : s.inputs = .rxByte b now :: rest)
include h ht hi

/-- A byte is taken in a next state: a data byte always, a terminator below the top of both counters. -/
theorem step_byte_completes (hc : s.cmdRx.toNat + terminators [(b, now)] < 2 ^ 32)
    (hbad : s.badRx.toNat + terminators [(b, now)] < 2 ^ 32) : ∃ t, step s = .next t := by
  have hh := h.not_halted ht
  obtain ⟨hw, -⟩ := h
  by_cases hb : b = chLF
  · rw [terminators_singleton, if_pos hb] at hc hbad
    subst hb
    rw [step_terminator hw hh ht hi]
    exact finishFrame_completes (s := clearReader ((s.setInputs rest).setNow now)) (toNat_ne_top.2 hc) (toNat_ne_top.2 hbad) _
  · exact ⟨_, step_dataByte hw hh ht hb hi⟩

/-- A terminator adds one frame to one of the two counters, a data byte to none. -/
theorem step_byte_counts {t : State} (hstep : step s = .next t) (hrun : t.halted = false) :
    t.cmdRx.toNat + t.badRx.toNat = s.cmdRx.toNat + s.badRx.toNat + terminators [(b, now)] ∧
    s.cmdRx.toNat ≤ t.cmdRx.toNat ∧ s.badRx.toNat ≤ t.badRx.toNat := by
  obtain ⟨hone, hnone⟩ := exactlyOneCounterPerFrame s t _ rest hstep hi nofun (h.not_halted ht) hrun
  rw [terminators_singleton]
  by_cases hb : b = chLF
  · rw [if_pos hb]
    obtain ⟨hc, hsame⟩ | ⟨hbad, hsame⟩ := hone (decide_eq_true hb) <;> rw [hsame] <;> omega
  · obtain ⟨hc, hbad⟩ := hnone (decide_eq_false hb)
    simp [hb, hc, hbad]

end

/-- Settles O49, by induction over the bytes: each is taken, the invariant kept, and exactly the terminators are counted. -/
theorem everyTerminatorIsOneFrame : Obligations.EveryTerminatorIsOneFrame := by
  intro s bytes h hp hi hc hb
  induction bytes generalizing s with
  | nil => exact ⟨s, rfl, hi, rfl⟩
  | cons x bytes ih =>
    obtain ⟨b, now⟩ := x
    have ht : s.cfg.isText = true := isText_iff.2 hp
    rw [byteEvents_cons] at hi
    rw [terminators_cons] at hc hb ⊢
    obtain ⟨t, hstep⟩ := step_byte_completes h ht hi (by omega) (by omega)
    have hInv : t.Inv := stepKeepsInvariant s t h hstep
    obtain ⟨hcfg, -, hin⟩ := stepKeepsConfigAndAppendsOutput s t hstep
    obtain ⟨hsum, hcle, hble⟩ := step_byte_counts h ht hi hstep (hInv.not_halted (hcfg ▸ ht))
    obtain ⟨u, hrun, hempty, hcount⟩ := ih t hInv (hcfg ▸ hp) (by rw [hin, hi]; rfl) (by omega) (by omega)
    exact ⟨u, (run_succ_of_step (M := core) hstep _).trans hrun, hempty, by omega⟩

end Sys2Proof.Machine
end

section
/-! PROOFS. The text commands (41_text_commands.md R130 to R145): a set-pixel line is read as two independent fields, each by the table of
R132; the letters without operand; the status line of GetState. -/

namespace Sys2Proof

/-! ## One field -/

/-- What a field of a sign or none and digits or none gives (41_text_commands.md R132). -/
def fieldValue (c : Config) (sign ds : List Byte) (max : Nat) : Except MalformedCause Nat :=
  field c ⟨decide (sign = [chMinus]), digitsValue ds, ds.length, []⟩ max

theorem fieldValue_plain (c : Config) {ds : List Byte} (h : ds ≠ []) (max : Nat) :
    fieldValue c [] ds max = if digitsValue ds ≤ max then .ok (digitsValue ds) else .error .outOfRange := by
  by_cases hv : digitsValue ds ≤ max
  · simp [fieldValue, field, h, hv, Nat.not_lt.2 hv]
  · simp [fieldValue, field, h, hv, Nat.lt_of_not_le hv]

/-- `-0` is 0, and under ClampZero so is every negative value. -/
theorem fieldValue_minus_eq_zero {c : Config} {ds : List Byte} (h : ds ≠ []) (hz : digitsValue ds = 0 ∨ c.negPolicy = .clampZero)
    (max : Nat) : fieldValue c [0x2D#8] ds max = .ok 0 := by
  by_cases hv : digitsValue ds = 0
  · simp [fieldValue, field, h, hv]
  · simp [fieldValue, field, chMinus, h, hz.resolve_left hv, Nat.pos_of_ne_zero hv]

theorem fieldValue_minus_rejected {c : Config} {ds : List Byte} (hv : digitsValue ds ≠ 0) (hn : c.negPolicy = .reject) (max : Nat) :
    fieldValue c [0x2D#8] ds max = .error .negativeField := by
  have h : ds ≠ [] := by rintro rfl; exact hv rfl
  simp [fieldValue, field, chMinus, h, hn, Nat.pos_of_ne_zero hv]

theorem fieldValue_empty_eq_zero {c : Config} (he : c.emptyInt = .zero) (sign : List Byte) (max : Nat) :
    fieldValue c sign [] max = .ok 0 := by
  simp [fieldValue, field, he, digitsValue]

theorem fieldValue_empty_rejected {c : Config} (he : c.emptyInt = .malformed) (sign : List Byte) (max : Nat) :
    fieldValue c sign [] max = .error .emptyField := by
  simp [fieldValue, field, he]

/-- The field `0`. -/
@[simp] theorem fieldValue_zeroDigit (c : Config) (max : Nat) : fieldValue c [] [0x30#8] max = .ok 0 :=
  fieldValue_plain c (by simp) max

theorem allDigits_zeroDigit : allDigits [0x30#8] := by unfold allDigits; decide

/-! ## The line of two fields -/

/-- `op` is the set-pixel letter of the active text protocol and `mk` its row. -/
def SetPixelRow (c : Config) (op : Byte) (mk : Nat → Color → Instr) : Prop :=
  c.proto = .textA ∧ op = 0x4F#8 ∧ mk = Instr.textAO ∨ c.proto = .textB ∧ op = 0x4C#8 ∧ mk = Instr.textBL

theorem exists_setPixelRow {c : Config} {op : Byte} (h : c.proto = .textA ∧ op = 0x4F#8 ∨ c.proto = .textB ∧ op = 0x4C#8) :
    ∃ mk, SetPixelRow c op mk := by
  obtain ⟨hp, hop⟩ | ⟨hp, hop⟩ := h
  · exact ⟨_, .inl ⟨hp, hop, rfl⟩⟩
  · exact ⟨_, .inr ⟨hp, hop, rfl⟩⟩

/-- A row's instruction says which led and which colour it is for. -/
theorem SetPixelRow.inj {c : Config} {op : Byte} {mk : Nat → Color → Instr} (h : SetPixelRow c op mk) {led led' : Nat} {col col' : Color}
    (e : mk led col = mk led' col') : led = led' ∧ col = col' := by
  obtain ⟨-, -, rfl⟩ | ⟨-, -, rfl⟩ := h
  · exact Instr.textAO.inj e
  · exact Instr.textBL.inj e

/-- The two fields of a line together: both values, or the cause of the first that fails (60_exceptions.md R215). -/
def pixelOfFields (mk : Nat → Color → Instr) : Except MalformedCause Nat → Except MalformedCause Nat → Except MalformedCause Instr
  | .error e, _ => .error e
  | .ok _, .error e => .error e
  | .ok led, .ok col => .ok (mk led (colorOfNat col))

section pixelOfFields

variable {mk : Nat → Color → Instr}

@[simp] theorem pixelOfFields_error (e : MalformedCause) (second : Except MalformedCause Nat) :
    pixelOfFields mk (.error e) second = .error e := rfl

@[simp] theorem pixelOfFields_ok_error (led : Nat) (e : MalformedCause) : pixelOfFields mk (.ok led) (.error e) = .error e := rfl

@[simp] theorem pixelOfFields_ok_ok (led col : Nat) : pixelOfFields mk (.ok led) (.ok col) = .ok (mk led (colorOfNat col)) := rfl

theorem pixelOfFields_eq_ok_iff {first second : Except MalformedCause Nat} {i : Instr} :
    pixelOfFields mk first second = .ok i ↔ ∃ led col, first = .ok led ∧ second = .ok col ∧ mk led (colorOfNat col) = i := by
  cases first with
  | error e => simp
  | ok led => cases second <;> simp

theorem pixelOfFields_eq_error_iff {first second : Except MalformedCause Nat} {e : MalformedCause} :
    pixelOfFields mk first second = .error e ↔ first = .error e ∨ ∃ led, first = .ok led ∧ second = .error e := by
  cases first with
  | error e' => simp
  | ok led => cases second <;> simp

end pixelOfFields

section line

variable {c : Config} {op : Byte} {mk : Nat → Color → Instr} (hrow : SetPixelRow c op mk) (hp : c.hasPixels = true)
include hrow hp

/-- A line whose first scan no comma stops. -/
theorem decode_without_comma {sign ds rest : List Byte} (hs : isSign sign) (hd : allDigits ds) (hr : isDigit (charAt rest) = false)
    (hm : sign ++ ds = [] → charAt rest ≠ chMinus) (hc : charAt rest ≠ chComma) :
    decode c (op :: (sign ++ ds ++ rest)) = .error .missingSeparator := by
  rw [decode_setPixel c op mk _ hrow hp, setPixel, decodeSetPixel, scanInt_sign hs hd hr hm, if_pos hc]

/-- A line from its first comma on, whatever follows: the end of the line is checked, then the first field decides before the second
(41_text_commands.md R133). -/
theorem decode_firstField {sign ds : List Byte} (hs : isSign sign) (hd : allDigits ds) (rest : List Byte) :
    decode c (op :: (sign ++ ds ++ 0x2C#8 :: rest)) =
      if charAt (scanInt rest).rest ≠ chLF then .error .missingSeparator
      else pixelOfFields mk (fieldValue c sign ds 255) (field c (scanInt rest) 16777215) := by
  have first : scanInt (sign ++ ds ++ chComma :: rest) = ⟨decide (sign = [chMinus]), digitsValue ds, ds.length, chComma :: rest⟩ :=
    scanInt_sign hs hd rfl fun _ => by rw [charAt_cons]; decide
  have value : field c ⟨decide (sign = [chMinus]), digitsValue ds, ds.length, chComma :: rest⟩ 255 = fieldValue c sign ds 255 := rfl
  rw [decode_setPixel c op mk _ hrow hp, setPixel, decodeSetPixel, ← chComma, first]
  simp only [charAt_cons, List.tail_cons, ne_eq, not_true, if_false, value]
  by_cases hend : charAt (scanInt rest).rest = chLF
  · simp only [hend, not_true, if_false]
    cases fieldValue c sign ds 255 with
    | error e => rfl
    | ok led => cases field c (scanInt rest) 16777215 <;> rfl
  · simp only [hend, not_false_eq_true, if_true]

/-- A line of two fields and nothing more. -/
theorem decode_twoFields {sign1 sign2 d1 d2 : List Byte} (h1 : isSign sign1) (h2 : isSign sign2) (hd1 : allDigits d1)
    (hd2 : allDigits d2) : decode c (op :: (sign1 ++ d1 ++ 0x2C#8 :: (sign2 ++ d2))) =
      pixelOfFields mk (fieldValue c sign1 d1 255) (fieldValue c sign2 d2 16777215) := by
  have second := scanInt_sign (rest := []) h2 hd2 rfl fun _ => by decide
  rw [List.append_nil] at second
  rw [decode_firstField hrow hp h1 hd1, second]
  rfl

/-- The line `f,0`: what the first field gives. -/
theorem decode_zeroColour {sign ds : List Byte} (hs : isSign sign) (hd : allDigits ds) :
    decode c (op :: (sign ++ ds ++ [0x2C#8, 0x30#8])) = pixelOfFields mk (fieldValue c sign ds 255) (.ok 0) := by
  simpa using decode_twoFields hrow hp (sign2 := []) hs (.inl rfl) hd allDigits_zeroDigit

/-- The line `0,g`: what the second field gives. -/
theorem decode_zeroLed {sign ds : List Byte} (hs : isSign sign) (hd : allDigits ds) :
    decode c (op :: 0x30#8 :: 0x2C#8 :: (sign ++ ds)) = pixelOfFields mk (.ok 0) (fieldValue c sign ds 16777215) := by
  simpa using decode_twoFields hrow hp (sign1 := []) (.inl rfl) hs allDigits_zeroDigit hd

/-- A first field of value 0 is read as `0`, whatever follows. -/
theorem decode_eq_of_first_zero {sign ds : List Byte} (hs : isSign sign) (hd : allDigits ds) (h : fieldValue c sign ds 255 = .ok 0)
    (rest : List Byte) : decode c (op :: (sign ++ ds ++ 0x2C#8 :: rest)) = decode c (op :: 0x30#8 :: 0x2C#8 :: rest) := by
  have zero := decode_firstField hrow hp (sign := []) (.inl rfl) allDigits_zeroDigit rest
  rw [fieldValue_zeroDigit, ← h, ← decode_firstField hrow hp hs hd] at zero
  exact zero.symm

section twoFields

variable {sign1 sign2 d1 d2 : List Byte} (h1 : isSign sign1) (h2 : isSign sign2) (hd1 : allDigits d1) (hd2 : allDigits d2)
include h1 h2 hd1 hd2

/-- A second field of value 0 is read as `0`. -/
theorem decode_eq_of_second_zero (h : fieldValue c sign2 d2 16777215 = .ok 0) :
    decode c (op :: (sign1 ++ d1 ++ 0x2C#8 :: (sign2 ++ d2))) = decode c (op :: (sign1 ++ d1 ++ [0x2C#8, 0x30#8])) := by
  rw [decode_twoFields hrow hp h1 h2 hd1 hd2, decode_zeroColour hrow hp h1 hd1, h]

theorem decode_eq_of_first_error {e : MalformedCause} (h : fieldValue c sign1 d1 255 = .error e) :
    decode c (op :: (sign1 ++ d1 ++ 0x2C#8 :: (sign2 ++ d2))) = .error e := by
  rw [decode_twoFields hrow hp h1 h2 hd1 hd2, h, pixelOfFields_error]

/-- A failing second field is reached past a good first one. -/
theorem decode_eq_of_second_error {e : MalformedCause} (hfirst : ∃ i, decode c (op :: (sign1 ++ d1 ++ [0x2C#8, 0x30#8])) = .ok i)
    (h : fieldValue c sign2 d2 16777215 = .error e) :
    decode c (op :: (sign1 ++ d1 ++ 0x2C#8 :: (sign2 ++ d2))) = .error e := by
  obtain ⟨i, hi⟩ := hfirst
  rw [decode_zeroColour hrow hp h1 hd1] at hi
  obtain ⟨led, -, hled, -⟩ := pixelOfFields_eq_ok_iff.1 hi
  rw [decode_twoFields hrow hp h1 h2 hd1 hd2, hled, h, pixelOfFields_ok_error]

end twoFields

end line

/-- Settles O7: each plain field is its value, or out of its range. -/
theorem textSetPixelReadsDecimals : Obligations.TextSetPixelReadsDecimals := by
  intro c op mk d1 d2 hrow hp hd1 hd2 hn1 hn2
  have fields := decode_twoFields hrow hp (sign1 := []) (sign2 := []) (.inl rfl) (.inl rfl) hd1 hd2
  rw [fieldValue_plain c hn1, fieldValue_plain c hn2] at fields
  refine fields.trans ?_
  by_cases hv1 : digitsValue d1 ≤ 255
  · by_cases hv2 : digitsValue d2 ≤ 16777215
    · simp [hv1, hv2, colorOfNat]
    · simp [hv1, hv2]
  · simp [hv1]

/-- Settles O8: a field with a minus is 0 or NegativeField, in either place. -/
theorem textNegativeFields : Obligations.TextNegativeFields := by
  intro c op sign1 sign2 d1 d2 rest hop hp h1 h2 hd1 hd2
  obtain ⟨mk, hrow⟩ := exists_setPixelRow hop
  have hminus : isSign [0x2D#8] := .inr rfl
  refine ⟨fun hn hz => ?firstZero, fun hv hneg => ?firstRejected, fun hn hz => ?secondZero, fun hv hneg hfirst => ?secondRejected⟩
  case firstZero => simpa using decode_eq_of_first_zero hrow hp hminus hd1 (fieldValue_minus_eq_zero hn hz 255) rest
  case firstRejected => simpa using decode_eq_of_first_error hrow hp hminus h2 hd1 hd2 (fieldValue_minus_rejected hv hneg 255)
  case secondZero => simpa using decode_eq_of_second_zero hrow hp h1 hminus hd1 hd2 (fieldValue_minus_eq_zero hn hz 16777215)
  case secondRejected =>
    simpa using decode_eq_of_second_error hrow hp h1 hminus hd1 hd2 hfirst (fieldValue_minus_rejected hv hneg 16777215)

/-- Settles O9: a field without digits is 0 or EmptyField, in either place. -/
theorem textEmptyFields : Obligations.TextEmptyFields := by
  intro c op sign sign1 sign2 d1 d2 rest hop hp hs h1 h2 hd1 hd2
  obtain ⟨mk, hrow⟩ := exists_setPixelRow hop
  have hnil : allDigits [] := List.forall_mem_nil _
  refine ⟨fun he => ?firstZero, fun he => ?firstRejected, fun he => ?secondZero, fun he hfirst => ?secondRejected⟩
  case firstZero =>
    simpa using decode_eq_of_first_zero hrow hp hs hnil (fieldValue_empty_eq_zero he sign 255) rest
  case firstRejected =>
    simpa using decode_eq_of_first_error hrow hp hs h2 hnil hd2 (fieldValue_empty_rejected he sign 255)
  case secondZero =>
    simpa using decode_eq_of_second_zero hrow hp h1 hs hd1 hnil (fieldValue_empty_eq_zero he sign 16777215)
  case secondRejected =>
    simpa using decode_eq_of_second_error hrow hp h1 hs hd1 hnil hfirst (fieldValue_empty_rejected he sign 16777215)

/-- Settles O10: the first scan must stop at a comma, the second at the end of the line. -/
theorem textSeparatorsAreChecked : Obligations.TextSeparatorsAreChecked := by
  intro c op x sign1 sign2 d1 d2 more hop hp h1 h2 hd1 hd2 hx hlf
  obtain ⟨mk, hrow⟩ := exists_setPixelRow hop
  have hstop : isDigit (charAt (x :: more)) = false := Bool.eq_false_iff.2 (mt (isDigit_iff x).1 hx)
  refine ⟨?endOfLine, fun hcomma hm => ?noComma, fun hm => ?afterSecond⟩
  case endOfLine =>
    simpa using decode_without_comma hrow hp (rest := []) h1 hd1 rfl (fun _ => by decide) (by decide)
  case noComma => exact decode_without_comma hrow hp h1 hd1 hstop hm hcomma
  case afterSecond =>
    rw [decode_firstField hrow hp h1 hd1, scanInt_sign h2 hd2 hstop hm]
    exact if_pos hlf

/-- Settles O57: the line of two fields and the lines `f,0` and `0,g` combine the same two field values. -/
theorem textFieldsAreIndependent : Obligations.TextFieldsAreIndependent := by
  intro c op mk sign1 sign2 d1 d2 hrow hp h1 h2 hd1 hd2
  rw [decode_zeroColour hrow hp h1 hd1, decode_zeroLed hrow hp h2 hd2, decode_twoFields hrow hp h1 h2 hd1 hd2]
  refine ⟨fun e hfirst => ?firstFails, fun i e hfirst hsecond => ?secondFails, fun led led' col col' hfirst hsecond => ?bothGood⟩
  case firstFails =>
    obtain h | ⟨_, -, h⟩ := pixelOfFields_eq_error_iff.1 hfirst
    · rw [h, pixelOfFields_error]
    · cases h
  case secondFails =>
    obtain ⟨led, -, hled, -⟩ := pixelOfFields_eq_ok_iff.1 hfirst
    obtain h | ⟨_, -, h⟩ := pixelOfFields_eq_error_iff.1 hsecond
    · cases h
    · rw [hled, h, pixelOfFields_ok_error]
  case bothGood =>
    obtain ⟨v, _, hv, -, hfirst⟩ := pixelOfFields_eq_ok_iff.1 hfirst
    obtain ⟨_, w, -, hw, hsecond⟩ := pixelOfFields_eq_ok_iff.1 hsecond
    have row : SetPixelRow c op mk := hrow
    rw [hv, hw, pixelOfFields_ok_ok, (row.inj hfirst).1, (row.inj hsecond).2]

/-! ## The letters without operand -/

/-- Settles O11: each letter of the two opcode maps goes to `noOperand` with its row. -/
theorem textNoOperandTail : Obligations.TextNoOperandTail := by
  intro c op tail i h
  have row : decode c (op :: tail) = noOperand c tail i := by
    obtain ⟨hp, ⟨rfl, rfl⟩ | ⟨rfl, rfl⟩ | ⟨rfl, hpix, rfl⟩⟩ | ⟨hp, ⟨rfl, rfl⟩ | ⟨rfl, hpix, rfl⟩⟩ := h
    · simp [decode, hp, decodeTextA, chG]
    · simp [decode, hp, decodeTextA, chG, chL]
    · simp [decode, hp, decodeTextA, hpix, chG, chL, chC]
    · simp [decode, hp, decodeTextB, chS]
    · simp [decode, hp, decodeTextB, hpix, chS, chX]
  simp [row, noOperand, List.length_pos_iff]

end Sys2Proof

namespace Sys2Proof.Machine

/-! ## GetState in text -/

/-- The status line shows the time since the last good command in its `L:` field alone (44_state_reporter.md R192). -/
theorem reportBytes_congr_since {c : Config} {good bad since since' : Nat} (ht : c.proto ≠ .binary)
    (h : c.statusLField = true → since = since') : reportBytes c good bad since = reportBytes c good bad since' := by
  by_cases hl : c.statusLField = true
  · rw [h hl]
  · simp [reportBytes, ht, hl]

/-- Right after a good command no time has passed since it, where `lastCmd` exists. -/
theorem now_sub_afterGood_lastCmd {s : State} (hl : s.cfg.statusLField = true) (ht : s.cfg.proto ≠ .binary) :
    s.now.toNat - (afterGood s).lastCmd.toNat = 0 := by
  simp [afterGood, hl, ht]

theorem signalOps_of_text {c : Config} (ht : c.proto ≠ .binary) : signalOps c = [] := if_neg ht

/-- Settles O16: in text there is no activity toggle, and under `Before` the time since the last good command is 0 where it is shown. -/
theorem textGetStateReports : Obligations.TextGetStateReports := by
  intro s i hrow hc hr
  obtain ⟨ht, hexec⟩ : s.cfg.proto ≠ .binary ∧ exec i s = completeGood .getState s := by
    obtain ⟨hp, rfl⟩ | ⟨hp, rfl⟩ := hrow
    · exact ⟨by simp [hp], rfl⟩
    · exact ⟨by simp [hp], rfl⟩
  rw [hexec, completeGetState_onDemand hr hc, signalOps_of_text ht, issueAll_nil, List.append_nil,
    reportBytes_congr_since ht fun hl => by rw [now_sub_afterGood_lastCmd hl ht]]

end Sys2Proof.Machine
end

section
/-! PROOFS. The binary commands (42_binary_commands.md R150 to R152): a packet that decodes is the encoding of its instruction, every
opcode is good at its exact size alone, and GetState reports in 9 bytes. -/

namespace Sys2Proof

open Laws.FrameShape (rowMatch)

/-! ## The packet of an instruction -/

/-- In Binary the operands have one spelling only. -/
theorem Spells.eq_encode_tail {c : Config} {tail : List Byte} {i : Instr} (h : Spells c tail i) (hb : i.proto = .binary) :
    tail = (encode i).tail := by
  cases i with
  | textAG | textAL | textAC | textAO | textBS | textBX | textBL => cases hb
  | binaryG | binaryL | binaryC | binaryO | binaryB | binaryA | binary0 | binary1 | binaryR => exact h

/-- Settles O2: a packet carries its instruction by the row's first byte and the one spelling of the operands. -/
theorem binaryPacketIsItsEncoding : Obligations.BinaryPacketIsItsEncoding := by
  intro c p i hp h
  cases p with
  | nil => cases h
  | cons op tail =>
    obtain ⟨hproto, hop, -, -, htail⟩ := decode_cons_eq_ok_iff.1 h
    rw [hop, htail.eq_encode_tail (hproto.trans hp), ← encode_eq_cons]

/-! ## The size law -/

/-- A decoder's answer for a packet whose size is good exactly when `good` holds (42_binary_commands.md R151). -/
def ObeysSize (good : Prop) (answer : Except MalformedCause Instr) : Prop :=
  (good → ∃ i, answer = .ok i) ∧ (¬good → answer = .error .wrongLength)

theorem ObeysSize.ok {good : Prop} (h : good) (i : Instr) : ObeysSize good (.ok i) :=
  ⟨fun _ => ⟨i, rfl⟩, fun hn => absurd h hn⟩

theorem ObeysSize.wrongLength {good : Prop} (h : ¬good) : ObeysSize good (.error .wrongLength) :=
  ⟨fun hg => absurd hg h, fun _ => rfl⟩

theorem noPayload_obeysSize (payload : List Byte) (i : Instr) : ObeysSize (1 + payload.length = 1) (noPayload payload i) := by
  unfold noPayload
  split
  next h => exact .ok (by omega) i
  next h => exact .wrongLength (by omega)

theorem exists_four_bytes {bytes : List Byte} (h : bytes.length = 4) : ∃ led r g b, bytes = [led, r, g, b] :=
  match bytes, h with
  | [led, r, g, b], _ => ⟨led, r, g, b, rfl⟩

section payload

variable {c : Config} (payload : List Byte)

/-- `G`, `L`, `R` and `C` have no payload (R152 to R154, R160). -/
theorem decodeBinary_plain_obeysSize {op : Byte} (h : op = chG ∨ op = chL ∨ op = chR ∨ op = chC ∧ c.hasPixels = true) :
    ObeysSize (1 + payload.length = 1) (decodeBinary c op payload) := by
  have row : ∃ i, decodeBinary c op payload = noPayload payload i := by
    obtain rfl | rfl | rfl | ⟨rfl, hpix⟩ := h
    · exact ⟨.binaryG, rfl⟩
    · exact ⟨.binaryL, rfl⟩
    · exact ⟨.binaryR, by simp [decodeBinary, chG, chL, chC, chO, chB, chA, ch0, ch1, chR]⟩
    · exact ⟨.binaryC, by simp [decodeBinary, hpix, chG, chL, chC]⟩
  obtain ⟨i, row⟩ := row
  rw [row]
  exact noPayload_obeysSize payload i

/-- `O` has an index and one triple (R155). -/
theorem decodeBinary_led_obeysSize (hpix : c.hasPixels = true) :
    ObeysSize (1 + payload.length = 5) (decodeBinary c chO payload) := by
  simp only [decodeBinary, hpix, chG, chL, chC, chO, BitVec.reduceEq, ↓reduceIte, and_true]
  split
  next => exact .ok rfl _
  next h =>
    refine .wrongLength fun hsize => ?_
    obtain ⟨led, r, g, b, rfl⟩ := exists_four_bytes (show payload.length = 4 by omega)
    exact h led r g b rfl

/-- `B` has an index and whole triples, at least one (R156). -/
theorem decodeBinary_batch_obeysSize (hpix : c.hasPixels = true) :
    ObeysSize (5 ≤ 1 + payload.length ∧ (1 + payload.length - 2) % 3 = 0) (decodeBinary c chB payload) := by
  simp only [decodeBinary, hpix, chG, chL, chC, chO, chB, BitVec.reduceEq, ↓reduceIte, and_true]
  cases payload with
  | nil => exact .wrongLength (by decide)
  | cons start rgb =>
    have hsize : 5 ≤ 1 + (start :: rgb).length ∧ (1 + (start :: rgb).length - 2) % 3 = 0 ↔
        5 ≤ 2 + rgb.length ∧ rgb.length % 3 = 0 := by
      rw [List.length_cons]
      omega
    rw [hsize]
    dsimp only
    split
    next h => exact .ok h _
    next h => exact .wrongLength h

/-- `A` has the bytes of the whole array (R157). -/
theorem decodeBinary_array_obeysSize (hbit : c.hasBitarray = true) :
    ObeysSize (1 + payload.length = 1 + c.m / 8) (decodeBinary c chA payload) := by
  simp only [decodeBinary, hbit, chG, chL, chC, chO, chB, chA, BitVec.reduceEq, ↓reduceIte, false_and, and_true]
  split
  next h => exact .ok h _
  next h => exact .wrongLength h

/-- `0` and `1` have a bit index (R158, R159). -/
theorem decodeBinary_bit_obeysSize {op : Byte} (h : op = ch0 ∨ op = ch1) (hbit : c.hasBitarray = true) :
    ObeysSize (1 + payload.length = 2) (decodeBinary c op payload) := by
  have notOne (hn : ∀ bit, payload = [bit] → False) : ¬1 + payload.length = 2 := fun hsize => by
    obtain ⟨bit, rfl⟩ := List.length_eq_one_iff.1 (show payload.length = 1 by omega)
    exact hn bit rfl
  obtain rfl | rfl := h
  all_goals
    simp only [decodeBinary, hbit, chG, chL, chC, chO, chB, chA, ch0, ch1, BitVec.reduceEq, ↓reduceIte, false_and, and_true]
    split
    next => exact .ok rfl _
    next hn => exact .wrongLength (notOne hn)

end payload

/-- Settles O6: the five shapes of a binary packet, each by its own size. -/
theorem binarySizeLaw : Obligations.BinarySizeLaw := by
  intro c op payload goodSize hp hshape
  have hdecode : decode c (op :: payload) = decodeBinary c op payload := by simp only [decode, hp]
  rw [hdecode]
  obtain ⟨hop, hsize⟩ | ⟨rfl, hpix, hsize⟩ | ⟨rfl, hpix, hsize⟩ | ⟨rfl, hbit, hsize⟩ | ⟨hop, hbit, hsize⟩ := hshape
  all_goals rw [hsize]
  · exact decodeBinary_plain_obeysSize payload hop
  · exact decodeBinary_led_obeysSize payload hpix
  · exact decodeBinary_batch_obeysSize payload hpix
  · exact decodeBinary_array_obeysSize payload hbit
  · exact decodeBinary_bit_obeysSize payload hop hbit

end Sys2Proof

namespace Sys2Proof.Machine

/-! ## GetState in Binary -/

/-- Settles O15: in Binary the activity toggle comes first, and the status frame is the 9-byte packet, which shows no time. -/
theorem binaryGetStateReports : Obligations.BinaryGetStateReports := by
  intro s hc hp hr
  have hexec : exec .binaryG s = completeGood .getState s := rfl
  have htoggle : signalOps s.cfg = [.actToggle] := if_pos hp
  rw [hexec, completeGetState_onDemand hr hc, htoggle, List.append_assoc, reportBytes, if_pos hp]
  rfl

end Sys2Proof.Machine
end

section
/-! PROOFS. The Command Dispatcher (43_dispatcher.md R170 to R181): the next state of each command, whole. A command that only issues
operations is counted and leaves what they make of the memories, so each result is that of its list of operations. -/

namespace Sys2Proof.Machine

/-! ## Completion -/

/-- A command other than GetState and Reset: counted once, its operations issued after the activity toggle and applied to the memories. -/
theorem exec_issues {i : Instr} {cmd : Command} {s : State} {m : Memory} (hcmd : i.command = cmd) (hg : cmd ≠ .getState)
    (hr : cmd ≠ .reset) (hc : s.cmdRx ≠ 0xFFFFFFFF#32) (hm : replay s.cfg (commandOps s.cfg cmd) s.mem = m) :
    exec i s = .next { afterGood s with mem := m, out := s.out ++ signalOps s.cfg ++ commandOps s.cfg cmd } := by
  have hi : i ≠ .binaryR := fun k => hr (hcmd ▸ command_eq_reset_iff.2 k)
  rw [exec_of_ne_reset hi, hcmd, completeGood_eq hg hr hc, ← hm, issueAll, afterGood_cfg, afterGood_mem, afterGood_out, replay_append,
    replay_signalOps, List.append_assoc]
  rfl

/-- Settles O17: under the push policy GetState has no operation of its own. -/
theorem getStateMarksDirtyUnderPush : Obligations.GetStateMarksDirtyUnderPush := by
  intro s i hi hc hp
  have hexec : exec i s = completeGood .getState s := by obtain rfl | rfl | rfl := hi <;> rfl
  rw [hexec, completeGetState_push hp hc, issueAll, afterGood_cfg, afterGood_mem, replay_signalOps]
  rfl

/-- Settles O24: Reset is counted under `Before` alone; the restart request writes no memory. -/
theorem resetRequestsRestartAndHalts : Obligations.ResetRequestsRestartAndHalts := by
  intro s
  rw [exec_reset]
  obtain ⟨hb, -, e⟩ | ⟨hb, hc, -⟩ | ⟨hb, e⟩ := completeReset_cases s
  · refine ⟨fun _ _ => ?_, fun k => by simp [hb] at k⟩
    rw [e, issueAll, replay_append, afterGood_cfg, afterGood_mem, replay_signalOps, ← List.append_assoc]
    rfl
  · exact ⟨fun _ k => absurd hc k, fun k => by simp [hb] at k⟩
  · refine ⟨fun k => by simp [hb] at k, fun _ => ?_⟩
    rw [e, signalActivity_eq, issueAll_append, issueAll, replay_append, replay_signalOps, ← List.append_assoc]
    rfl

/-! ## Latch -/

/-- Latch publishes the pending contents of the sinks present. -/
theorem replay_latch (c : Config) (m : Memory) :
    replay c (commandOps c .latch) m = { m with
      pixv := if c.hasPixels = true then m.pixp else m.pixv
      bitv := if c.hasBitarray = true then m.bitp else m.bitv } := by
  rw [commandOps, replay_append]
  split <;> split <;> rfl

/-- Settles O18: the flush, then the commit. -/
theorem latchPublishesBothSinks : Obligations.LatchPublishesBothSinks := by
  intro s i hi hc
  have hcmd : i.command = .latch := by obtain rfl | rfl := hi <;> rfl
  rw [exec_issues hcmd (by simp) (by simp) hc (replay_latch s.cfg s.mem), commandOps, List.append_assoc _ (ite _ _ _)]

/-! ## Pixel commands -/

/-- One pixel write, by the range of its index (20_memory.md R52). -/
theorem pixSet_eq (c : Config) (i : Nat) (col : Color) (m : Memory) :
    m.pixSet c i col = { m with
      pixp := if i < c.n then m.pixp.set i col else if c.pixOor = .clamp then m.pixp.set (c.n - 1) col else m.pixp } := by
  by_cases hi : i < c.n
  · simp [Memory.pixSet, pixTarget, hi]
  · cases hp : c.pixOor <;> simp [Memory.pixSet, pixTarget, hi, hp]

/-- Settles O20: one pixel write, and the flush under `AUTO_FLUSH`. -/
theorem setOneLedWritesItsPixel : Obligations.SetOneLedWritesItsPixel := by
  intro s i led col hi hc
  have hcmd : i.command = .setOneLed led col := by obtain rfl | rfl | rfl := hi <;> rfl
  rw [exec_issues hcmd (by simp) (by simp) hc (replay_setOneLed s.cfg s.mem led col), commandOps, pixSet_eq,
    List.append_assoc _ [_]]
  split <;> rfl

section run

variable (idx : Nat) (cols : List Color)

/-- A run of pixel writes ends with that of its last colour. -/
theorem runOps_concat (col : Color) : runOps idx (cols ++ [col]) = runOps idx cols ++ [.pixSet (idx + cols.length) col] := by
  simp [runOps, List.mapIdx_append]

/-- A run of one colour writes consecutive pixels in ascending order. -/
theorem runOps_replicate (n : Nat) (col : Color) :
    runOps idx (List.replicate n col) = (List.range n).map fun k => .pixSet (idx + k) col := by
  refine List.ext_getElem (by simp [runOps]) fun k _ _ => ?_
  simp [runOps]

/-- A run of pixel writes leaves every memory but `PIXP`. -/
theorem replay_runOps_eq (c : Config) (m : Memory) :
    replay c (runOps idx cols) m = { m with pixp := (replay c (runOps idx cols) m).pixp } := by
  rw [Memory.mk.injEq]
  simp

theorem replay_runOps_length (c : Config) (m : Memory) : (replay c (runOps idx cols) m).pixp.length = m.pixp.length :=
  replay_runOps_unchanged c idx cols m (fun m => m.pixp.length) (by simp)

variable {c : Config} {m : Memory} (hl : m.pixp.length = c.n)
include hl

/-- The last colour of a run is written last. -/
theorem replay_runOps_concat_read (hn : 1 ≤ c.n) (col : Color) (j : Nat) :
    (replay c (runOps idx (cols ++ [col])) m).pixp[j]? =
      if pixTarget c (idx + cols.length) = some j then some col else (replay c (runOps idx cols) m).pixp[j]? := by
  rw [runOps_concat, replay_append]
  exact pixSet_read hn ((replay_runOps_length idx cols c m).trans hl) _ col j

/-- A pixel on which no colour lands from past the strip has the colour of its own place in the run, or reads as before;
by induction from the end of the run. -/
theorem replay_runOps_read_inRange {j : Nat} (hj : j < c.n)
    (hover : ¬(c.pixOor = .clamp ∧ j = c.n - 1 ∧ c.n < idx + cols.length)) :
    (replay c (runOps idx cols) m).pixp[j]? = if idx ≤ j ∧ j < idx + cols.length then cols[j - idx]? else m.pixp[j]? := by
  rw [← List.reverse_reverse cols] at hover ⊢
  generalize cols.reverse = back at hover ⊢
  induction back with
  | nil =>
    have hout : ¬(idx ≤ j ∧ j < idx + ([] : List Color).reverse.length) := by
      rw [List.reverse_nil, List.length_nil]
      omega
    rw [if_neg hout]
    rfl
  | cons col back ih =>
    rw [List.reverse_cons] at hover ⊢
    generalize back.reverse = front at ih hover ⊢
    have hn : 1 ≤ c.n := by omega
    rw [List.length_append, List.length_singleton] at hover ⊢
    have hin : pixTarget c (idx + front.length) = some j ↔ j = idx + front.length := by
      rw [pixTarget_eq_some_iff hn]
      exact ⟨fun ⟨_, h⟩ => h.resolve_right fun ⟨hle, hp, he⟩ => hover ⟨hp, he, by omega⟩, fun h => ⟨hj, .inl h⟩⟩
    rw [replay_runOps_concat_read idx front hl hn]
    simp only [hin]
    by_cases hlast : j = idx + front.length
    · simp [hlast]
    · rw [if_neg hlast, ih fun ⟨hp, he, hlt⟩ => hover ⟨hp, he, by omega⟩]
      by_cases hrun : idx ≤ j ∧ j < idx + front.length
      · rw [if_pos hrun, if_pos (by omega), List.getElem?_append_left (by omega)]
      · rw [if_neg hrun, if_neg (by omega)]

/-- Under Clamp the last colour of a run past the strip stays on the last pixel. -/
theorem replay_runOps_read_clamped (hn : 1 ≤ c.n) (hp : c.pixOor = .clamp) (hne : cols ≠ []) (hover : c.n < idx + cols.length) :
    (replay c (runOps idx cols) m).pixp[c.n - 1]? = cols.getLast? := by
  obtain ⟨front, col, rfl⟩ := (List.eq_nil_or_concat cols).resolve_left hne
  rw [List.concat_eq_append] at hover ⊢
  rw [List.length_append, List.length_singleton] at hover
  have hlast : pixTarget c (idx + front.length) = some (c.n - 1) :=
    (pixTarget_eq_some_iff hn).2 ⟨by omega, .inr ⟨by omega, hp, rfl⟩⟩
  rw [replay_runOps_concat_read idx front hl hn, if_pos hlast, List.getLast?_concat]

/-- ClearLeds leaves every pixel dark, pending and visible. -/
theorem replay_clearLeds_eq :
    replay c (commandOps c .clearLeds) m =
      { m with pixp := List.replicate c.n Color.dark, pixv := List.replicate c.n Color.dark } := by
  have hdark : (replay c (runOps 0 (List.replicate c.n Color.dark)) m).pixp = List.replicate c.n Color.dark := by
    refine List.ext_getElem? fun j => ?_
    by_cases hj : j < c.n
    · rw [replay_runOps_read_inRange 0 _ hl hj (by simp)]
      simp [hj]
    · rw [List.getElem?_eq_none (by rw [replay_runOps_length]; omega), List.getElem?_eq_none (by simpa using hj)]
  rw [replay_clearLeds, replay_runOps_eq, hdark]
  rfl

end run

/-- Settles O19: `N` dark pixels in a run from 0, then the flush. -/
theorem clearLedsDarkensEveryPixel : Obligations.ClearLedsDarkensEveryPixel := by
  intro s i hi hc hl
  have hcmd : i.command = .clearLeds := by obtain rfl | rfl | rfl := hi <;> rfl
  rw [exec_issues hcmd (by simp) (by simp) hc (replay_clearLeds_eq hl), commandOps, runOps_replicate, ← List.append_assoc]
  simp only [Nat.zero_add]
  rfl

/-- Settles O53: the second ClearLeds writes dark pixels over dark ones. -/
theorem clearLedsTwiceIsOnce : Obligations.ClearLedsTwiceIsOnce := by
  intro s i j hi hj hc hl
  have hc1 : s.cmdRx ≠ 0xFFFFFFFF#32 := toNat_ne_top.2 (by omega)
  have hc2 : s.cmdRx + 1#32 ≠ 0xFFFFFFFF#32 := toNat_ne_top.2 (by rw [toNat_counter_succ hc1]; exact hc)
  refine ⟨_, _, clearLedsDarkensEveryPixel s i hi hc1 hl, clearLedsDarkensEveryPixel _ j hj hc2 (by simp), rfl, fun k hk => ?_⟩
  simp [hk]

/-- Settles O21: a pixel takes the last of the run's colours that lands on it. -/
theorem setBatchLedsWritesItsRun : Obligations.SetBatchLedsWritesItsRun := by
  intro s start cols hc hn hl hne
  refine ⟨(replay s.cfg (runOps start cols) s.mem).pixp,
    exec_issues (cmd := .setBatchLeds start cols) rfl (by simp) (by simp) hc (replay_runOps_eq start cols s.cfg s.mem),
    (replay_runOps_length start cols s.cfg s.mem).trans hl, fun j hj => ?_⟩
  split
  next hover =>
    obtain ⟨hp, rfl, hlt⟩ := hover
    exact replay_runOps_read_clamped start cols hl hn hp hne hlt
  next hover => exact replay_runOps_read_inRange start cols hl hj hover

/-! ## Bit commands -/

/-- Settles O22: a load of the array's own length replaces it. -/
theorem setArrayReplacesBits : Obligations.SetArrayReplacesBits := by
  intro s bytes hc hlen hl
  have hload : s.mem.bitLoad bytes = { s.mem with bitp := bytes } := by
    rw [Memory.bitLoad, Memory.loadBytes_eq (hlen.trans hl.symm)]
  exact exec_issues (cmd := .setArray bytes) rfl (by simp) (by simp) hc hload

/-- A bit write leaves every memory but `BITP`. -/
theorem bitSet_eq (c : Config) (k : Nat) (v : Bool) (m : Memory) : m.bitSet c k v = { m with bitp := (m.bitSet c k v).bitp } := by
  rw [Memory.mk.injEq]
  simp

/-- Settles O23: one `BitSet`, which writes one bit. -/
theorem setArrayBitChangesOneBit : Obligations.SetArrayBitChangesOneBit := by
  intro s i bit v hi hc hm hm8 hl
  have hcmd : i.command = .setArrayBit bit v := by obtain ⟨rfl, rfl⟩ | ⟨rfl, rfl⟩ := hi <;> rfl
  obtain ⟨hbits, hlen, -⟩ := bitSetWritesOneBit s.cfg bit v s.mem hm hm8 hl
  exact ⟨_, exec_issues hcmd (by simp) (by simp) hc (bitSet_eq s.cfg bit v s.mem), hlen, hbits⟩

end Sys2Proof.Machine
end

section
/-! PROOFS. The activity indicator (43_dispatcher.md R171): every finalized frame signals it as its protocol says, no command issues the
toggle itself, and no event but a packet signals it. -/

namespace Sys2Proof.Machine

theorem actToggle_notMem_commandOps (c : Config) (cmd : Command) : OutOp.actToggle ∉ commandOps c cmd := by
  have run (idx : Nat) (cols : List Color) : OutOp.actToggle ∉ runOps idx cols := fun h => by
    obtain ⟨_, _, _, h⟩ := mem_runOps h
    cases h
  cases cmd with
  | none | malformed | getState | setArray | setArrayBit | reset => simp [commandOps]
  | latch | setOneLed => simp [commandOps]
  | clearLeds => simp [commandOps, run]
  | setBatchLeds start cols => exact run start cols

theorem GoodEffect.actToggle_notMem {s : State} {cmd : Command} {ops : List OutOp} {d : Bool} (h : GoodEffect s cmd ops d) :
    OutOp.actToggle ∉ ops := by
  cases h with
  | operations => exact actToggle_notMem_commandOps s.cfg cmd
  | marksDirty | reports => simp

/-- From `s` to `t` the indicator comes to `level`, and the operations issued are `first` and then others than the toggle. -/
def Indicates (level : Bool) (first : List OutOp) (s t : State) : Prop :=
  t.act = level ∧ ∃ ops, t.out = s.out ++ (first ++ ops) ∧ OutOp.actToggle ∉ ops

/-- What issues nothing after `first`. -/
theorem Indicates.of_out {level : Bool} {first : List OutOp} {s t : State} (ha : t.act = level) (ho : t.out = s.out ++ first) :
    Indicates level first s t :=
  ⟨ha, [], by simpa using ho, by simp⟩

/-- An update that leaves `act` and the output alone. -/
theorem Indicates.of_same {s t : State} (ha : t.act = s.act) (ho : t.out = s.out) : Indicates s.act [] s t :=
  .of_out ha (by simpa using ho)

/-- The signal of a finalized frame: in Binary the inversion and the toggle, in text nothing. -/
abbrev SignalsFrame (s t : State) : Prop := Indicates (if s.cfg.proto = .binary then !s.act else s.act) (signalOps s.cfg) s t

theorem exec_signalsFrame {i : Instr} {s t : State} (h : exec i s = .next t) : SignalsFrame s t := by
  by_cases hr : i = .binaryR
  · subst hr
    obtain ⟨u, rfl | rfl, rfl⟩ := exec_next_of_reset h <;> exact ⟨rfl, [.restartReq], rfl, by simp⟩
  · obtain ⟨-, ops, d, hx, rfl⟩ := exec_next_of_ne_reset hr h
    exact ⟨rfl, ops, rfl, hx.actToggle_notMem⟩

theorem finishFrame_signalsFrame {d : Except MalformedCause Instr} {s t : State} (h : finishFrame d s = .next t) :
    SignalsFrame s t := by
  obtain ⟨i, -, he⟩ | ⟨-, -, rfl⟩ := finishFrame_next h
  · exact exec_signalsFrame he
  · exact .of_out rfl rfl

theorem storeByte_act (b : Byte) (s : State) : (storeByte b s).act = s.act := by
  rw [storeByte_eq]
  split <;> rfl

theorem tick_indicates (s : State) : Indicates s.act [] s (tick s) := by
  obtain ⟨-, e⟩ | ⟨-, _, _, e, -⟩ | ⟨-, _, e⟩ := tick_cases s <;> rw [e]
  · exact .of_same rfl rfl
  · exact ⟨rfl, _, rfl, by simp⟩
  · exact .of_same rfl rfl

/-- Of the events of a running core a packet signals, which is taken in Binary alone; a line, which is taken in text alone, does not. -/
theorem handle_indicates {e : Event} {s t : State} (h : handle e s = .next t) (hs : s.halted = false) (hx : e ≠ .extReset) :
    ((∃ p now, e = .packet p now) ∧ Indicates (!s.act) [.actToggle] s t) ∨
    ((∀ p now, e ≠ .packet p now) ∧ Indicates s.act [] s t) := by
  obtain ⟨rfl, -⟩ | ⟨-, hh, -⟩ | ⟨-, -, b, now, rfl, -, rfl⟩ | ⟨-, ht, now, rfl, hf⟩ | ⟨-, ht, p, now, rfl, -, hf⟩ | ⟨-, now, rfl, rfl⟩ :=
    handle_cases h
  · exact absurd rfl hx
  · simp [hs] at hh
  · exact .inr ⟨by simp, .of_same (storeByte_act b (s.setNow now)) (storeByte_out b (s.setNow now))⟩
  · have hframe : SignalsFrame s t := finishFrame_signalsFrame (s := clearReader (s.setNow now)) hf
    have hp : s.cfg.proto ≠ .binary := isText_iff.1 ht
    rw [SignalsFrame, if_neg hp, signalOps_of_text hp] at hframe
    exact .inr ⟨by simp, hframe⟩
  · have hframe : SignalsFrame s t := finishFrame_signalsFrame (s := s.setNow now) hf
    have hp : s.cfg.proto = .binary := Decidable.byContradiction fun k => by simp [isText_iff.2 k] at ht
    rw [SignalsFrame, signalOps, if_pos hp, if_pos hp] at hframe
    exact .inl ⟨⟨p, now, rfl⟩, hframe⟩
  · exact .inr ⟨by simp, tick_indicates (s.setNow now)⟩

/-- Settles O46: an idle step signals nothing, and of the events of a running core the packet alone signals. -/
theorem activityToggleOncePerPacket : Obligations.ActivityToggleOncePerPacket := by
  intro s t h hs
  obtain ⟨-, ⟨hi, rfl⟩ | ⟨e, rest, hi, he⟩⟩ := step_cases h
  · simp [hi, issued]
  · rw [hi, List.head?_cons]
    by_cases hx : e = .extReset
    · simp [hx]
    obtain ⟨⟨p, now, rfl⟩, hact, ops, hout, hops⟩ | ⟨hne, hact, ops, hout, hops⟩ := handle_indicates he hs hx
    · exact ⟨fun _ _ _ => ⟨hact, ops, issued_of_append hout, hops⟩, fun k => absurd rfl (k p now)⟩
    · exact ⟨fun p now k => absurd (Option.some.inj k) (hne p now), fun _ _ => ⟨hact, issued_of_append hout ▸ hops⟩⟩

end Sys2Proof.Machine
end

section
/-! PROOFS. The State Reporter (44_state_reporter.md R190 to R200): what a host reads from either status frame, the frame's length, and what
`Tick` does under each report policy. -/

namespace Sys2Proof.Machine

/-! ## The two formats -/

theorem statusFrame_of_binary {s : State} (hp : s.cfg.proto = .binary) : statusFrame s = statusPacket s := by
  simp [statusFrame, hp]

theorem statusFrame_of_text {s : State} (ht : s.cfg.proto ≠ .binary) : statusFrame s = statusLine s := by
  cases hp : s.cfg.proto with
  | binary => exact absurd hp ht
  | textA | textB => simp [statusFrame, hp]

/-! ## The status packet -/

/-- The packet's two numbers by their bytes (20_memory.md R61). -/
theorem statusPacket_eq (s : State) : statusPacket s = 0x53#8 :: (bigEndian s.cmdRx.toNat ++ bigEndian s.badRx.toNat) := by
  rw [statusPacket, be32_eq, be32_eq]
  rfl

theorem statusPacket_length (s : State) : (statusPacket s).length = 9 := by
  rw [statusPacket_eq]
  rfl

/-- The base-256 digits of a 32-bit number give it back. -/
theorem hostReadBE32_digits {v : Nat} (h : v < 2 ^ 32) :
    hostReadBE32 (.ofNat 8 (v / 16777216)) (.ofNat 8 (v / 65536)) (.ofNat 8 (v / 256)) (.ofNat 8 v) = v := by
  simp only [hostReadBE32, BitVec.toNat_ofNat]
  omega

theorem hostReadPacket_bigEndian {good bad : Nat} (hg : good < 2 ^ 32) (hb : bad < 2 ^ 32) :
    hostReadPacket (0x53#8 :: (bigEndian good ++ bigEndian bad)) = some (good, bad) := by
  simp [bigEndian, hostReadPacket, hostReadBE32_digits hg, hostReadBE32_digits hb]

/-! ## The status line -/

/-- The host's scan over the digits accumulates as `digitsValue` does and stops at the `';'`. -/
theorem hostReadDigits_digits {ds : List Byte} (hd : allDigits ds) (v : Nat) (rest : List Byte) :
    hostReadDigits v (ds ++ 0x3B#8 :: rest) = some (ds.foldl (fun v d => v * 10 + (d.toNat - 0x30)) v, rest) := by
  induction ds generalizing v with
  | nil => simp [hostReadDigits]
  | cons d ds ih =>
    obtain ⟨hdigit, htail⟩ := List.forall_mem_cons.1 hd
    have hsemi : d ≠ 0x3B#8 := by rintro rfl; exact absurd hdigit (by decide)
    rw [List.cons_append, hostReadDigits, if_neg hsemi, if_pos hdigit, ih htail, List.foldl_cons]

theorem hostReadDigits_dec (v : Nat) (rest : List Byte) : hostReadDigits 0 (dec v ++ 0x3B#8 :: rest) = some (v, rest) := by
  rw [hostReadDigits_digits (dec_allDigits v)]
  exact congrArg (fun n => some (n, rest)) (digitsValue_dec v)

theorem statusField_append (letter : Byte) (v : Word32) (rest : List Byte) :
    statusField letter v ++ rest = letter :: 0x3A#8 :: (dec v.toNat ++ 0x3B#8 :: rest) := by
  simp [statusField, chColon, chSemicolon]

/-- The host needs the first two fields of a line alone. -/
theorem hostReadLine_fields (good bad : Word32) (rest : List Byte) :
    hostReadLine (statusField chC good ++ (statusField chB bad ++ rest)) = some (good.toNat, bad.toNat) := by
  simp [statusField_append, chC, chB, hostReadLine, hostReadDigits_dec]

/-- Settles O55: big-endian bytes and decimal digits are read back exactly, whatever follows the two counters in the line. -/
theorem statusFrameRoundTrip : Obligations.StatusFrameRoundTrip := by
  refine fun s => ⟨fun hp => ?_, fun ht => ?_⟩
  · rw [statusFrame_of_binary hp, statusPacket_eq]
    exact hostReadPacket_bigEndian s.cmdRx.isLt s.badRx.isLt
  · rw [statusFrame_of_text ht, statusLine, List.append_assoc, List.append_assoc]
    exact hostReadLine_fields s.cmdRx s.badRx _

/-! ## Lengths -/

theorem dec_length_pos (v : Nat) : 1 ≤ (dec v).length := List.length_pos_iff.2 (dec_ne_nil v)

/-- A number below `10 ^ (k + 1)` has at most `k + 1` decimal digits. -/
theorem dec_length_le {v k : Nat} (h : v < 10 ^ (k + 1)) : (dec v).length ≤ k + 1 := by
  induction k generalizing v with
  | zero => simp [dec_of_lt_ten h]
  | succ k ih =>
    obtain hv | hv := Nat.lt_or_ge v 10
    · simp [dec_of_lt_ten hv]
    · have hdigits : (dec (v / 10)).length ≤ k + 1 := ih (by rw [Nat.pow_succ] at h; omega)
      rw [dec_of_ten_le hv, List.length_append, List.length_singleton]
      omega

/-- A letter, `:`, one to ten digits, `;`. -/
theorem statusField_length_bounds (letter : Byte) (v : Word32) :
    4 ≤ (statusField letter v).length ∧ (statusField letter v).length ≤ 13 := by
  have hlen : (statusField letter v).length = (dec v.toNat).length + 3 := by simp [statusField]
  have hpos : 1 ≤ (dec v.toNat).length := dec_length_pos v.toNat
  have hle : (dec v.toNat).length ≤ 10 := dec_length_le (k := 9) (by have := v.isLt; omega)
  omega

/-- Two fields or three, then CR LF. -/
theorem statusLine_length_bounds (s : State) : 10 ≤ (statusLine s).length ∧ (statusLine s).length ≤ 41 := by
  have hgood := statusField_length_bounds chC s.cmdRx
  have hbad := statusField_length_bounds chB s.badRx
  have hsince := statusField_length_bounds chL (elapsed s.now s.lastCmd)
  unfold statusLine
  split <;> simp only [List.length_append, List.length_cons, List.length_nil] <;> omega

/-- Settles O56: the packet has the tag and two times four bytes, the line two or three bounded fields and CR LF. -/
theorem statusFrameLength : Obligations.StatusFrameLength := by
  refine fun s => ⟨fun hp => ?_, fun ht => ?_⟩
  · rw [statusFrame_of_binary hp]
    exact statusPacket_length s
  · rw [statusFrame_of_text ht]
    exact statusLine_length_bounds s

/-! ## `Tick` -/

theorem step_of_idle {s : State} (hw : s.cfg.wf = true) (hi : s.inputs = []) : step s = .next s := by
  simp [step, nextEvent, hw, hi]

theorem step_tick {s : State} {now : Word32} {rest : List Event} (hw : s.cfg.wf = true) (hh : s.halted = false)
    (hi : s.inputs = .tick now :: rest) : step s = .next (tick ((s.setInputs rest).setNow now)) := by
  simp [step_of_cons hw hi, handle, hh]

theorem tick_of_onDemand {s : State} (hr : s.cfg.report = .onDemand) : tick s = s := by simp [tick, hr]

/-- Settles O36: with no event pending the step keeps the state, and the on-demand `Tick` only takes the event and its clock sample. -/
theorem onDemandTickAndIdleChangeNothing : Obligations.OnDemandTickAndIdleChangeNothing := by
  refine fun s hw => ⟨step_of_idle hw, fun now rest hr hh hi => ?_⟩
  rw [step_tick hw hh hi, tick_of_onDemand (s := (s.setInputs rest).setNow now) hr]
  rfl

theorem tick_of_push {s : State} (hr : s.cfg.report = .push) : tick s = tickPush s := by simp [tick, hr]

/-- The push gate in plain numbers (44_state_reporter.md R195): a timestamp in the future counts as no time passed. -/
def PushGate (s : State) : Prop :=
  s.cfg.stateSendMs.toNat ≤ s.now.toNat - s.lastSent.toNat ∧ (s.cfg.pushRequiresDirty = true → s.dirty = true)

/-- The model's gate, read after its clamp of `lastSent`, is the gate in plain numbers. -/
theorem pushDue_clamped_iff (s : State) : pushDue (s.setLastSent (clampTime s.lastSent s.now)) = true ↔ PushGate s := by
  simp only [pushDue, State.setLastSent_cfg, State.setLastSent_now, State.setLastSent_lastSent, State.setLastSent_dirty,
    Bool.and_eq_true, decide_eq_true_eq, BitVec.le_def, elapsed_clampTime_toNat, PushGate]
  cases s.cfg.pushRequiresDirty <;> simp

theorem tickPush_of_gate {s : State} (h : PushGate s) :
    tickPush s = ((emitStatus (s.setLastSent (clampTime s.lastSent s.now))).setLastSent s.now).setDirty false :=
  if_pos ((pushDue_clamped_iff s).2 h)

theorem tickPush_of_not_gate {s : State} (h : ¬PushGate s) : tickPush s = s.setLastSent (clampTime s.lastSent s.now) :=
  if_neg fun hdue => h ((pushDue_clamped_iff s).1 hdue)

/-- Settles O35: the step is `tickPush` on the state that has seen the clock sample, and the gate decides between its two outcomes. -/
theorem pushTickGate : Obligations.PushTickGate := by
  intro s now rest hw hr hh hi
  have hstep : step s = .next (tickPush ((s.setInputs rest).setNow now)) := by
    rw [step_tick hw hh hi, tick_of_push (s := (s.setInputs rest).setNow now) hr]
  refine ⟨fun hgate => ?_, fun hgate => ?_⟩
  · rw [hstep, tickPush_of_gate (s := (s.setInputs rest).setNow now) hgate, emitStatus_eq]
    rfl
  · rw [hstep, tickPush_of_not_gate (s := (s.setInputs rest).setNow now) hgate]
    rfl

end Sys2Proof.Machine
end

section
/-! PROOFS. The exception (60_exceptions.md R216): the step of a malformed packet and of a malformed line, whole. -/

namespace Sys2Proof.Machine

/-- At the top of `badRx` a malformed frame is refused (10_state.md R30). -/
theorem finishFrame_error_of_top {s : State} (htop : s.badRx = 0xFFFFFFFF#32) (e : MalformedCause) :
    finishFrame (.error e) s = .refused .badCounterExhausted := by
  obtain ⟨hb, -⟩ | ⟨-, h⟩ := takeMalformed_cases s
  · exact absurd htop hb
  · exact h

theorem afterBad_of_binary {s : State} (hp : s.cfg.proto = .binary) :
    afterBad s = { s with badRx := s.badRx + 1#32, act := !s.act, out := s.out ++ [.actToggle] } := by
  rw [afterBad, signalOps, if_pos hp, if_pos hp]

theorem afterBad_of_text {s : State} (ht : s.cfg.proto ≠ .binary) : afterBad s = s.setBadRx (s.badRx + 1#32) := by
  rw [afterBad, signalOps_of_text ht, if_neg ht, List.append_nil]
  rfl

/-- A line that overflowed, or that the decoder rejects, is finalized as malformed: without an overflow the decoder is what is asked. -/
theorem exists_lineResult_eq_error {s : State} (h : s.ovf = true ∨ ∃ e, decode s.cfg (s.mem.fb.take s.cur) = .error e) :
    ∃ e, lineResult s = .error e := by
  cases ho : s.ovf with
  | true => exact ⟨_, lineResult_of_ovf ho⟩
  | false => exact h.elim (fun k => by simp [ho] at k) fun ⟨e, hdec⟩ => ⟨e, (lineResult_of_not_ovf ho).trans hdec⟩

/-- Settles O33: the step is the exception on the state that has taken the event, and in Binary the exception toggles the indicator. -/
theorem malformedPacketIsCounted : Obligations.MalformedPacketIsCounted := by
  intro s p now rest e hw hp hh hi hl hdec
  rw [step_packet hw hh hp hl hi, hdec]
  refine ⟨fun hb => ?counted, fun htop => ?refused⟩
  case counted =>
    rw [finishFrame_error (s := (s.setInputs rest).setNow now) hb, afterBad_of_binary (s := (s.setInputs rest).setNow now) hp]
    rfl
  case refused => exact finishFrame_error_of_top (s := (s.setInputs rest).setNow now) htop e

/-- Settles O34: the reader is cleared before the exception is taken, and in text the exception only counts. -/
theorem malformedLineIsCounted : Obligations.MalformedLineIsCounted := by
  intro s now rest hw hp hh hi hbad
  obtain ⟨e, hline⟩ := exists_lineResult_eq_error hbad
  let u := clearReader ((s.setInputs rest).setNow now)
  have hstep : step s = finishFrame (.error e) u := hline ▸ step_terminator hw hh (isText_iff.2 hp) hi
  rw [hstep]
  refine ⟨fun hb => ?counted, fun htop => ?refused⟩
  case counted =>
    rw [finishFrame_error (s := u) hb, afterBad_of_text (s := u) hp]
    rfl
  case refused => exact finishFrame_error_of_top (s := u) htop e

end Sys2Proof.Machine
end

section
/-! PROOFS. `ExtReset` (70_reset_and_hazards.md R240), and a halted core fed any events before it (R242; 10_state.md R35). -/

namespace Sys2Proof.Machine

/-- The fresh start meets the invariant whatever the state before it was. -/
theorem extReset_inv {s : State} (hw : s.cfg.wf = true) : (extReset s).Inv := resetWith_inv hw s.draws

theorem step_extReset {s : State} {rest : List Event} (hw : s.cfg.wf = true) (hi : s.inputs = .extReset :: rest) :
    step s = .next (extReset (s.setInputs rest)) := step_of_cons hw hi

/-- Settles O37: the reset state in the same configuration, with a fresh draw of the memories. -/
theorem extResetRestoresResetState : Obligations.ExtResetRestoresResetState := by
  intro s rest hw hi
  exact ⟨_, step_extReset hw hi, rfl, rfl, rfl, rfl, rfl, rfl, rfl, rfl, rfl, Memory.unspecified_wf _ _, rfl, rfl, rfl⟩

/-- A halted core consumes the events before the next `ExtReset` without effect, whatever `k` further steps do. -/
theorem run_of_halted (es : List Event) {s : State} {rest : List Event} (hw : s.cfg.wf = true) (hh : s.halted = true)
    (hes : ∀ e ∈ es, e ≠ .extReset) (hi : s.inputs = es ++ rest) (k : Nat) :
    core.run (es.length + k) s = core.run k (s.setInputs rest) := by
  induction es generalizing s with
  | nil =>
    have hs : s.setInputs rest = s := setInputs_of_eq hi
    rw [List.length_nil, Nat.zero_add, hs]
  | cons e es ih =>
    obtain ⟨he, hes⟩ := List.forall_mem_cons.1 hes
    have hstep : step s = .next (s.setInputs (es ++ rest)) := haltedIgnoresEvent s e _ hw hh hi he
    rw [List.length_cons, Nat.add_right_comm]
    exact (run_succ_of_step (M := core) hstep _).trans (ih hw hh hes rfl)

/-- Settles O52: the ignored events leave only `ExtReset` to act, which needs no invariant of the halted state. -/
theorem haltedUntilExtReset : Obligations.HaltedUntilExtReset := by
  intro s es rest hw hh hes
  refine ⟨fun hi => run_of_halted es hw hh hes hi 0, fun hi => ?revived⟩
  case revived =>
    have hstep : step (s.setInputs (.extReset :: rest)) = .next (extReset (s.setInputs rest)) := step_extReset hw rfl
    have hrun : core.run (es.length + 1) s = .next (extReset (s.setInputs rest)) :=
      (run_of_halted es hw hh hes hi 1).trans ((run_one core _).trans hstep)
    exact ⟨_, hrun, extReset_inv hw, rfl, rfl, rfl, rfl, rfl, rfl, rfl, rfl, rfl, Memory.unspecified_wf _ _, rfl, rfl, rfl, rfl⟩

end Sys2Proof.Machine
end

section
/-! PROOFS. The test vectors of the decoder (95_test_vectors.md): frames written out from the spec are the encodings of their instructions. -/

namespace Sys2Proof

/-- The round trip read from the frame: bytes that encode a well-formed instruction decode to it. -/
theorem decode_of_encode_eq {c : Config} {i : Instr} {f : List Byte} (he : encode i = f) (hw : i.wf c = true) : decode c f = .ok i :=
  he ▸ decodeEncodeRoundTrip c i hw

/-- Settles O4: each frame is the encoding of its instruction, which is well-formed in its configuration. -/
theorem specWordsDecode : Obligations.SpecWordsDecode := by
  refine ⟨?s5, ?s7, ?t33, ?t35, ?b13, ?b18, ?b26⟩ <;> exact decode_of_encode_eq (by decide) (by decide)

end Sys2Proof
end
